-- ==== Sys2Proof/Word.lean ====
section
/-! DEFINITION. The plain word types of the engine: bytes, command words, binary64 patterns, register
addresses and blocks of bytes read in one bus transaction. -/

namespace Sys2Proof

/-- One byte of the sensor's register space, or one payload byte (R9, R41). -/
abbrev Byte := BitVec 8

/-- An 8-bit sensor register address (R41). -/
abbrev RegAddr := BitVec 8

/-- A 16-bit host command word `CMD[15:0]` (R71). -/
abbrev CmdWord := BitVec 16

/-- The bit pattern of a binary64 value, sign bit first (R170). -/
abbrev F64 := BitVec 64

/-- The bytes `b[0] .. b[n-1]` of one read transaction, in the order delivered (R42). -/
abbrev Block (n : Nat) := Fin n → Byte

end Sys2Proof
end

