-- ==== Sys2Proof/Config.lean ====
section
/-! DEFINITION. What an implementation of the engine fixes (the parameters of R8, as the fields of one
record; the values this spec takes stand in Machine/Parameters.lean) and the free values: what the
spec leaves to the sensor's oracle (R47) or does not state. -/

namespace Sys2Proof.Config

/-- `DIV_MODE` of R8 and R14: how the one integer division rounds. -/
inductive DivMode where
  | trunc
  | floor
deriving DecidableEq, Repr

/-- `RECONSTRUCT` of R8 and R101: what a CONSTRUCT in `READY` does. -/
inductive Reconstruct where
  | refuse
  | replace
deriving DecidableEq, Repr

/-- `ARITH` of R8 and R10: the one reading under which the spec defines every result (log 14). -/
inductive Arith where
  | exact
deriving DecidableEq, Repr

/-- `F64_ROUND` of R8 and R171: the one rounding mode, not switchable. -/
inductive Rounding where
  | tiesToEven
deriving DecidableEq, Repr

/-- The three calibration blocks that CONSTRUCT reads (R50, R102). -/
inductive CalBlock where
  | block88
  | blockA1
  | blockE1
deriving DecidableEq, Repr

/-- The values of the coefficients the temperature compensator reads (R22, R130). -/
structure TCoeffs where
  t1 : Int
  t2 : Int
  t3 : Int
deriving DecidableEq, Repr

/-- The values of the coefficients the pressure compensator reads (R22, R140). -/
structure PCoeffs where
  p1 : Int
  p2 : Int
  p3 : Int
  p4 : Int
  p5 : Int
  p6 : Int
  p7 : Int
  p8 : Int
  p9 : Int
deriving DecidableEq, Repr

/-- The values of the coefficients the humidity compensator reads (R22, R155). -/
structure HCoeffs where
  h1 : Int
  h2 : Int
  h3 : Int
  h4 : Int
  h5 : Int
  h6 : Int
deriving DecidableEq, Repr

/-- What the temperature compensator writes: `t_fine` and `T_centi` (R130). -/
structure TResult where
  tFine : Int
  tCenti : Int
deriving DecidableEq, Repr

/-- The parameters of R8; R19 asks that they be fields and not literals of the step function.
`addrW` is the width of the stored device bus address and so of CONSTRUCT's operand field (R23, R72).
`compP` takes `p_raw` and then `t_fine`, and answers none for the zero-denominator sentinel (R144);
`compH` takes `h_raw` and then `t_fine`. -/
structure Params where
  addrW : Nat
  calOrder : List CalBlock
  xlsbShift : Nat
  tOsShift : Nat
  h45Signed : Bool
  arith : Arith
  divMode : DivMode
  f64Round : Rounding
  stMeasuringBit : Nat
  stImUpdateBit : Nat
  reconstruct : Reconstruct
  compT : Arith → TCoeffs → Int → TResult
  compP : Arith → DivMode → PCoeffs → Int → Int → Option Int
  compH : Arith → HCoeffs → Int → Int → Int

/-- Free value: whether the sensor's transaction number `k` fails, where nothing has fixed its answer
(R47, U5; log 2). -/
opaque freeFails : Nat → Bool

/-- Free value: byte `i` the sensor delivers in transaction number `k`, where nothing has fixed it
(R47, U4; log 2, log 23). -/
opaque freeByte : Nat → Nat → Byte

/-- Free value: the quotient of two binary64 patterns of which one is not finite or the divisor is zero,
which the spec does not state because it never arises (R171; log 21). -/
opaque freeQuotient : F64 → F64 → F64

end Sys2Proof.Config
end

