-- ==== Sys2Proof/Machine/Arith.lean ====
section
/-! DEFINITION. The integer notation of the rules: shifts, division, extension, byte order (R10 to R14). -/

namespace Sys2Proof.Machine

/-- `v << n` in the integers: no bits are lost (R11). -/
def shl (v : Int) (n : Nat) : Int := v * 2 ^ n

/-- `v >> n` in the integers: `floor (v / 2^n)`, rounding toward minus infinity (R11; log 25). -/
def shr (v : Int) (n : Nat) : Int := v / 2 ^ n

/-- `idiv(n, d)` for `d ≠ 0`, rounded by `DIV_MODE` (R14). -/
def idiv (mode : Config.DivMode) (n d : Int) : Int :=
  match mode with
  | .trunc => Int.tdiv n d
  | .floor => Int.fdiv n d

/-- `low8(v)` for a non-negative `v` (R12). -/
def low8 (v : Nat) : Byte := BitVec.ofNat 8 v

/-- `sext_8` of a byte (R13). -/
def sext8 (b : Byte) : Int := if b.toNat < 128 then (b.toNat : Int) else (b.toNat : Int) - 256

/-- `sext_16` of a 16-bit pattern (R13). -/
def sext16 (w : BitVec 16) : Int := if w.toNat < 32768 then (w.toNat : Int) else (w.toNat : Int) - 65536

/-- `le16(lo, hi) = (hi << 8) | lo`: the first-read byte is the least significant (R13). -/
def le16 (lo hi : Byte) : BitVec 16 := (hi.setWidth 16 <<< 8) ||| lo.setWidth 16

end Sys2Proof.Machine
end

