-- ==== Sys2Proof/Machine/CompHumidity.lean ====
section
/-! DEFINITION. The fixed-point humidity compensator CompH (R155 to R163): `COMP_H` of R8, the formula the
spec supplies from general knowledge (log 20), with the mandatory clamp (R162). All arithmetic is exact
(R10). -/

namespace Sys2Proof.Machine

/-- The temperature offset `x` (R156). -/
def humX (tFine : Int) : Int := tFine - 76800

/-- The left factor `A` (R157), from `x`. -/
def humA (c : Config.HCoeffs) (hRaw x : Int) : Int :=
  shr (shl hRaw 14 - shl c.h4 20 - c.h5 * x + 16384) 15

/-- `b1` of R158. -/
def humB1 (c : Config.HCoeffs) (x : Int) : Int := shr (x * c.h6) 10

/-- `b2` of R158. -/
def humB2 (c : Config.HCoeffs) (x : Int) : Int := shr (x * c.h3) 11 + 32768

/-- `b3` of R158. -/
def humB3 (c : Config.HCoeffs) (x : Int) : Int := shr (humB1 c x * humB2 c x) 10 + 2097152

/-- The right factor `B` (R159). -/
def humB (c : Config.HCoeffs) (x : Int) : Int := shr (humB3 c x * c.h2 + 8192) 14

/-- The product `y` (R160). -/
def humY (c : Config.HCoeffs) (hRaw x : Int) : Int := humA c hRaw x * humB c x

/-- The second-order correction `z` (R161), from `y`. -/
def humZ (c : Config.HCoeffs) (y : Int) : Int := shr (shr (shr y 15 * shr y 15) 7 * c.h1) 4

/-- `w` of R161: the value before the clamp. -/
def humW (c : Config.HCoeffs) (hRaw x : Int) : Int := humY c hRaw x - humZ c (humY c hRaw x)

/-- The clamp to `[0, 419430400]` (R162). -/
def humClamp (w : Int) : Int := if w < 0 then 0 else if w > 419430400 then 419430400 else w

/-- CompH (R155 to R163): the clamped value shifted right by 12, in Q22.10. -/
def compH (arith : Config.Arith) (c : Config.HCoeffs) (hRaw tFine : Int) : Int :=
  match arith with
  | .exact => shr (humClamp (humW c hRaw (humX tFine))) 12

end Sys2Proof.Machine
end

