-- ==== Sys2Proof/Machine/CompPressure.lean ====
section
/-! DEFINITION. The fixed-point pressure compensator CompP (R140 to R149): `COMP_P` of R8, the formula the
spec supplies from general knowledge (log 20), with the zero-denominator sentinel (R144). All arithmetic
is exact (R10) and the result is not narrowed (R149; log 27). -/

namespace Sys2Proof.Machine

/-- The temperature offset `v` (R141). -/
def presV (tFine : Int) : Int := tFine - 128000

/-- The numerator adjustment `var2` (R142), from `v`. -/
def presVar2 (c : Config.PCoeffs) (v : Int) : Int :=
  v * v * c.p6 + shl (v * c.p5) 17 + shl c.p4 35

/-- `d1` of R143, from `v`. -/
def presD1 (c : Config.PCoeffs) (v : Int) : Int := shr (v * v * c.p3) 8 + shl (v * c.p2) 12

/-- `d2` of R143, from `v`. -/
def presD2 (c : Config.PCoeffs) (v : Int) : Int := (shl 1 47 + presD1 c v) * c.p1

/-- The denominator `var1` (R143), from `v`. -/
def presVar1 (c : Config.PCoeffs) (v : Int) : Int := shr (presD2 c v) 33

/-- The raw value inversion `p0` (R145). -/
def presP0 (pRaw : Int) : Int := 1048576 - pRaw

/-- The numerator `num` (R146). -/
def presNum (c : Config.PCoeffs) (pRaw v : Int) : Int := (shl (presP0 pRaw) 31 - presVar2 c v) * 3125

/-- The quotient `p1` (R146). -/
def presP1 (mode : Config.DivMode) (c : Config.PCoeffs) (pRaw v : Int) : Int :=
  idiv mode (presNum c pRaw v) (presVar1 c v)

/-- The correction term `w1` (R147). -/
def presW1 (c : Config.PCoeffs) (p1 : Int) : Int := shr (c.p9 * shr p1 13 * shr p1 13) 25

/-- The correction term `w2` (R147). -/
def presW2 (c : Config.PCoeffs) (p1 : Int) : Int := shr (c.p8 * p1) 19

/-- The result `P_q8` from `p1` (R148). -/
def presQ8 (c : Config.PCoeffs) (p1 : Int) : Int := shr (p1 + presW1 c p1 + presW2 c p1) 8 + shl c.p7 4

/-- CompP (R140 to R149): none is the sentinel, answered when the denominator is exactly zero, before any
division (R144). -/
def compP (arith : Config.Arith) (mode : Config.DivMode) (c : Config.PCoeffs) (pRaw tFine : Int) : Option Int :=
  match arith with
  | .exact =>
    if presVar1 c (presV tFine) = 0 then none
    else some (presQ8 c (presP1 mode c pRaw (presV tFine)))

end Sys2Proof.Machine
end

