-- ==== Sys2Proof/Machine/CompTemperature.lean ====
section
/-! DEFINITION. The fixed-point temperature compensator CompT (R130 to R133): `COMP_T` of R8, the formula
the spec supplies from general knowledge (log 20). All arithmetic is exact (R10). -/

namespace Sys2Proof.Machine

/-- The first term (R131). -/
def tempVar1 (c : Config.TCoeffs) (tRaw : Int) : Int :=
  shr ((shr tRaw 3 - shl c.t1 1) * c.t2) 11

/-- `d` of R132. -/
def tempD (c : Config.TCoeffs) (tRaw : Int) : Int := shr tRaw 4 - c.t1

/-- The second term (R132). -/
def tempVar2 (c : Config.TCoeffs) (tRaw : Int) : Int :=
  shr (shr (tempD c tRaw * tempD c tRaw) 12 * c.t3) 14

/-- `t_fine`, the shared intermediate (R133). -/
def tempFine (c : Config.TCoeffs) (tRaw : Int) : Int := tempVar1 c tRaw + tempVar2 c tRaw

/-- `T_centi` from `t_fine`, in hundredths of a degree (R133). -/
def tempCenti (tFine : Int) : Int := shr (tFine * 5 + 128) 8

/-- CompT (R130 to R133). -/
def compT (arith : Config.Arith) (c : Config.TCoeffs) (tRaw : Int) : Config.TResult :=
  match arith with
  | .exact => { tFine := tempFine c tRaw, tCenti := tempCenti (tempFine c tRaw) }

end Sys2Proof.Machine
end

