-- ==== Sys2Proof/Machine/Parameters.lean ====
section
/-! DEFINITION. The parameter values this spec takes for this hardware (R8). The syntax imports this file,
since one parameter, `ADDR_W`, is the width of an operand. -/

namespace Sys2Proof.Machine

/-- R8's table, the column "value taken" (log 10 to log 20). Reducible, so that a type of width
`params.addrW` is one of width 7 wherever a width is asked for. -/
abbrev params : Config.Params where
  addrW := 7
  calOrder := [.block88, .blockA1, .blockE1]
  xlsbShift := 2
  tOsShift := 7
  h45Signed := false
  arith := .exact
  divMode := .trunc
  f64Round := .tiesToEven
  stMeasuringBit := 3
  stImUpdateBit := 0
  reconstruct := .refuse
  compT := compT
  compP := compP
  compH := compH

end Sys2Proof.Machine
end

