-- ==== Sys2Proof/Syntax.lean ====
section
/-! DEFINITION. The command set: one constructor of Instr per row of spec/opcode_table.json (R70, R73),
each operand as wide as its field (R72); the enumerations of D0's option values (R81 to R84) and the
assembler's command lines (R86). -/

namespace Sys2Proof

/-- A device bus address, `ADDR_W` bits, never validated (R23; log 19). -/
abbrev DevAddr := BitVec Machine.params.addrW

/-- The eight commands of R70 and R73 with the operand fields of R72. -/
inductive Instr where
  | construct (address : DevAddr)
  | status
  | readId
  | reset
  | writeConfig (standby filter : BitVec 3) (spi3w : BitVec 1)
  | writeCtrlMeas (tempOs pressOs : BitVec 3) (mode : BitVec 2)
  | writeCtrlHum (os : BitVec 3)
  | readStatus
deriving DecidableEq, Repr

/-- The oversampling enumeration (R81). -/
inductive Oversampling where
  | skip
  | x1
  | x2
  | x4
  | x8
  | x16
deriving DecidableEq, Repr

/-- The standby enumeration, with its two model-specific codes (R82). -/
inductive Standby where
  | halfMs
  | ms62
  | ms125
  | ms250
  | ms500
  | ms1000
  | model6
  | model7
deriving DecidableEq, Repr

/-- The filter enumeration (R83). -/
inductive Filter where
  | off
  | by2
  | by4
  | by8
  | by16
deriving DecidableEq, Repr

/-- The power mode enumeration (R84). -/
inductive Mode where
  | sleep
  | forced
  | normal
deriving DecidableEq, Repr

/-- An operand as the assembler takes it: a number or a symbolic name (R86). -/
inductive Operand (α : Type) where
  | num (n : Nat)
  | sym (name : α)
deriving DecidableEq, Repr

/-- A line of assembler: the mnemonic with its operands in D0's argument order (R86). -/
inductive AsmLine where
  | construct (address : Nat)
  | status
  | readId
  | reset
  | writeConfig (standby : Operand Standby) (filter : Operand Filter) (spi3w : Nat)
  | writeCtrlMeas (tempOs pressOs : Operand Oversampling) (mode : Operand Mode)
  | writeCtrlHum (os : Operand Oversampling)
  | readStatus
deriving DecidableEq, Repr

end Sys2Proof
end

