-- ==== Sys2Proof/WellFormed.lean ====
section
/-! DEFINITION. The checks on terms that the types leave open. An instruction needs none: each operand is
exactly as wide as its field (R72) and no operand value is illegal (R76, R85). What can be ill-formed is
a command word a host should not send (R75), an option value D0's enumerations do not name (R81 to R84),
and a parameter record (R8). -/

namespace Sys2Proof

/-- The five formats of R72. -/
inductive Format where
  | n
  | a
  | c
  | m
  | h
deriving DecidableEq, Repr

/-- The bits `CMD[n-1:0]`. -/
def lowBits (n : Nat) : CmdWord := BitVec.ofNat 16 (2 ^ n - 1)

/-- The bits of a command word that a format gives a meaning: `OP` and the fields of R72, the field of
format A being `ADDR_W` bits wide. -/
def Format.usedBits : Format → CmdWord
  | .n => 0xE000
  | .a => 0xE000 ||| lowBits Machine.params.addrW
  | .c => 0xE07F
  | .m => 0xE0FF
  | .h => 0xE007

/-- A word of this format as a host should write it: its ignored bits are 0 (R75). -/
def Format.canonical (f : Format) (w : CmdWord) : Bool := w &&& ~~~f.usedBits == 0

/-- The operands are values that D0's enumerations name, so that D0's typed API could have issued the
command. The engine accepts the others as well (R76, R85). -/
def Instr.inEnumerations : Instr → Bool
  | .construct _ => true
  | .status => true
  | .readId => true
  | .reset => true
  | .writeConfig _ filter _ => decide (filter.toNat ≤ 4)
  | .writeCtrlMeas tempOs pressOs mode =>
      decide (tempOs.toNat ≤ 5) && decide (pressOs.toNat ≤ 5) && decide (mode ≠ 2)
  | .writeCtrlHum os => decide (os.toNat ≤ 5)
  | .readStatus => true

/-- A parameter record the rules make sense for: a device address fits the argument field `CMD[12:0]` (R71,
R72), the three calibration blocks are read once each (R102)
and the two status bits lie in a byte (R204). -/
def Config.Params.wellFormed (c : Config.Params) : Bool :=
  decide (c.addrW ≤ 13) && decide (c.calOrder.length = 3) && decide (Config.CalBlock.block88 ∈ c.calOrder) &&
  decide (Config.CalBlock.blockA1 ∈ c.calOrder) && decide (Config.CalBlock.blockE1 ∈ c.calOrder) &&
  decide (c.stMeasuringBit < 8) && decide (c.stImUpdateBit < 8)

end Sys2Proof
end

