-- ==== Sys2Proof/Decode.lean ====
section
/-! DEFINITION. The opcode table, the decoder from command words to instructions, total on every word
(R73, R76), and after it the encoder, written from the same rules (R72, R73). -/

namespace Sys2Proof

/-- A row of R73's table. -/
structure OpcodeRow where
  mnemonic : String
  format : Format
  matchBits : CmdWord
  mask : CmdWord
deriving DecidableEq, Repr

/-- R73's table of operation codes. -/
def opcodeTable : List OpcodeRow :=
  [⟨"CONSTRUCT", .a, 0x0000, 0xE000⟩,
   ⟨"STATUS", .n, 0x2000, 0xE000⟩,
   ⟨"READ_ID", .n, 0x4000, 0xE000⟩,
   ⟨"RESET", .n, 0x6000, 0xE000⟩,
   ⟨"WRITE_CONFIG", .c, 0x8000, 0xE000⟩,
   ⟨"WRITE_CTRL_MEAS", .m, 0xA000, 0xE000⟩,
   ⟨"WRITE_CTRL_HUM", .h, 0xC000, 0xE000⟩,
   ⟨"READ_STATUS", .n, 0xE000, 0xE000⟩]

/-- A word selects the row with `(w & mask) == match` (R73). -/
def OpcodeRow.selects (r : OpcodeRow) (w : CmdWord) : Bool := w &&& r.mask == r.matchBits

/-- The mnemonic of R73. -/
def Instr.mnemonic : Instr → String
  | .construct _ => "CONSTRUCT"
  | .status => "STATUS"
  | .readId => "READ_ID"
  | .reset => "RESET"
  | .writeConfig _ _ _ => "WRITE_CONFIG"
  | .writeCtrlMeas _ _ _ => "WRITE_CTRL_MEAS"
  | .writeCtrlHum _ => "WRITE_CTRL_HUM"
  | .readStatus => "READ_STATUS"

/-- The format of R72. -/
def Instr.format : Instr → Format
  | .construct _ => .a
  | .status => .n
  | .readId => .n
  | .reset => .n
  | .writeConfig _ _ _ => .c
  | .writeCtrlMeas _ _ _ => .m
  | .writeCtrlHum _ => .h
  | .readStatus => .n

/-- Bits `hi:lo` of a command word, `n` of them from `lo` upward, zero-extended as they stand (R12, R74). -/
def field (w : CmdWord) (lo n : Nat) : BitVec n := w.extractLsb' lo n

/-- The command a word stands for: `OP` is `CMD[15:13]`, the operand fields are those of R72, the address
being `ADDR_W` bits wide, the other bits are ignored (R75). All eight operation codes are defined (R76). -/
def decode (w : CmdWord) : Instr :=
  match (field w 13 3).toFin with
  | 0 => .construct (field w 0 Machine.params.addrW)
  | 1 => .status
  | 2 => .readId
  | 3 => .reset
  | 4 => .writeConfig (field w 4 3) (field w 1 3) (field w 0 1)
  | 5 => .writeCtrlMeas (field w 5 3) (field w 2 3) (field w 0 2)
  | 6 => .writeCtrlHum (field w 0 3)
  | 7 => .readStatus

/-- Why a string of bits is no command word: there is one length, 16 bits (R71, R77; log 22). -/
inductive DecodeError where
  | longerThanAWord
deriving DecidableEq, Repr

/-- The command in `nbits` bits of value `w`, bit 0 the least significant, the bits above them 0. -/
def decodeBits (nbits w : Nat) : Except DecodeError Instr :=
  if nbits ≤ 16 then .ok (decode (BitVec.ofNat 16 (w % 2 ^ nbits))) else .error .longerThanAWord

/-- The host's entry to the decoder: the instruction of an opcode-table word. -/
def decodeTableWord (nbits w : Nat) : Option Instr := (decodeBits nbits w).toOption

/-- Operand `x` placed at bit `lo` of a command word. -/
def place {n : Nat} (x : BitVec n) (lo : Nat) : CmdWord := x.setWidth 16 <<< lo

/-- The word of a command with its ignored bits 0 (R72, R73, R75). -/
def encode : Instr → CmdWord
  | .construct address => 0x0000 ||| place address 0
  | .status => 0x2000
  | .readId => 0x4000
  | .reset => 0x6000
  | .writeConfig standby filter spi3w => 0x8000 ||| place standby 4 ||| place filter 1 ||| place spi3w 0
  | .writeCtrlMeas tempOs pressOs mode => 0xA000 ||| place tempOs 5 ||| place pressOs 2 ||| place mode 0
  | .writeCtrlHum os => 0xC000 ||| place os 0
  | .readStatus => 0xE000

end Sys2Proof
end

