-- ==== Sys2Proof/Machine/Operands.lean ====
section
/-! DEFINITION. The operand forms: the payload bytes packed from a command's fields (R80), the codes of the
enumerations (R81 to R84) and the status byte's two bits (R204). -/

namespace Sys2Proof.Machine

/-- `cfg = low8((standby << 5) | (filter << 2) | spi3w)` (R80, R195). -/
def configPayload (standby filter : BitVec 3) (spi3w : BitVec 1) : Byte :=
  low8 ((standby.toNat <<< 5) ||| (filter.toNat <<< 2) ||| spi3w.toNat)

/-- `cm = low8((temp_os << T_OS_SHIFT) | (press_os << 2) | mode)` (R80, R198; log 11). -/
def ctrlMeasPayload (tOsShift : Nat) (tempOs pressOs : BitVec 3) (mode : BitVec 2) : Byte :=
  low8 ((tempOs.toNat <<< tOsShift) ||| (pressOs.toNat <<< 2) ||| mode.toNat)

/-- `ch = low8(os)` (R80, R202). -/
def ctrlHumPayload (os : BitVec 3) : Byte := low8 os.toNat

/-- The one value ever written to the reset register (R50, R192). -/
def resetMagic : Byte := 0xB6

/-- Bit `i` of the status byte, bit 0 the least significant (R12, R204). -/
def statusBit (st : Byte) (i : Nat) : Bool := st.getLsbD i

/-- The oversampling codes (R81; log 26). -/
def oversamplingCode : Oversampling → Nat
  | .skip => 0
  | .x1 => 1
  | .x2 => 2
  | .x4 => 3
  | .x8 => 4
  | .x16 => 5

/-- The standby codes (R82; log 26). -/
def standbyCode : Standby → Nat
  | .halfMs => 0
  | .ms62 => 1
  | .ms125 => 2
  | .ms250 => 3
  | .ms500 => 4
  | .ms1000 => 5
  | .model6 => 6
  | .model7 => 7

/-- The filter codes (R83; log 26). -/
def filterCode : Filter → Nat
  | .off => 0
  | .by2 => 1
  | .by4 => 2
  | .by8 => 3
  | .by16 => 4

/-- The mode codes (R84; log 26). -/
def modeCode : Mode → Nat
  | .sleep => 0
  | .forced => 1
  | .normal => 3

end Sys2Proof.Machine
end

