-- ==== Sys2Proof/Machine/State.lean ====
section
/-! DEFINITION. The machine's state as plain data: the engine's own state (R20), what its environment will
do (host inputs, sensor answers) and what an outside observer has seen (R34). -/

namespace Sys2Proof.Machine

/-- The coefficient file (calibration ROM) in its storage bits (R21). Signedness belongs to reading
a coefficient: see `tCoeffs`, `pCoeffs`, `hCoeffs` in Machine/Calibration.lean. -/
structure Calibration where
  T1 : BitVec 16
  T2 : BitVec 16
  T3 : BitVec 16
  P1 : BitVec 16
  P2 : BitVec 16
  P3 : BitVec 16
  P4 : BitVec 16
  P5 : BitVec 16
  P6 : BitVec 16
  P7 : BitVec 16
  P8 : BitVec 16
  P9 : BitVec 16
  H1 : BitVec 8
  H2 : BitVec 16
  H3 : BitVec 8
  H4 : BitVec 12
  H5 : BitVec 12
  H6 : BitVec 8
deriving DecidableEq, Repr

/-- The lifecycle state (R26). In `unconstructed` the device address and the coefficient file hold no
value and so have no field (R33, R231; log 5). -/
inductive Lifecycle where
  | unconstructed
  | ready (devAddr : DevAddr) (cal : Calibration)
deriving DecidableEq, Repr

/-- The raw sample registers, written by the register decoder (R24). -/
structure RawSample where
  pRaw : BitVec 20
  tRaw : BitVec 20
  hRaw : BitVec 16
deriving DecidableEq, Repr

/-- The working registers of a STATUS command (R24, R25): `pQ8` holds no value exactly when the pressure
compensator answered its sentinel (R144). -/
structure Work where
  raw : RawSample
  tFine : Int
  tCenti : Int
  pQ8 : Option Int
  hQ10 : Int
deriving DecidableEq, Repr

/-- The pressure result, tagged (R78, R174): a binary64 in hPa, or the typed sentinel. -/
inductive Pressure where
  | value (x : F64)
  | invalid
deriving DecidableEq, Repr

/-- The Measurement (R30): degrees Celsius, hPa or the sentinel, percent relative humidity (R176). -/
structure Measurement where
  temperature : F64
  pressure : Pressure
  humidity : F64
deriving DecidableEq, Repr

/-- The response record of R78. -/
inductive Response where
  | ok
  | meas (m : Measurement)
  | id (id : Byte)
  | status (measuring imUpdate : Bool)
  | busIoError (txn : Nat)
  | refused
deriving DecidableEq, Repr

/-- A bus transaction the engine issues: `R(reg, len)` or `W(reg, payload)` of R79. -/
inductive Txn where
  | read (reg : RegAddr) (len : Nat)
  | write (reg : RegAddr) (payload : Byte)
deriving DecidableEq, Repr

/-- What the sensor answered to a transaction: the bytes of a read, the success of a write, or the
failure of either (R42, R44). -/
inductive Reply where
  | data (bytes : List Byte)
  | done
  | failed
deriving DecidableEq, Repr

/-- One transaction as an observer of the bus sees it (R34 b). -/
structure BusRecord where
  dev : DevAddr
  txn : Txn
  reply : Reply
deriving DecidableEq, Repr

/-- What is fixed of the sensor's answer to one transaction (R47). `ok` fixes its success and, for a
read, its first bytes; what `ok` leaves unfixed is free (log 23). `never` is the transaction that never
completes (R240). -/
inductive Answer where
  | ok (bytes : List Byte)
  | fail
  | never
deriving DecidableEq, Repr

/-- What the host does between commands: put a command word on the port (R70), or assert the hardware
reset input (R230). -/
inductive HostInput where
  | command (w : CmdWord)
  | hardwareReset
deriving DecidableEq, Repr

/-- The whole state. `lifecycle` and `work` are the engine's (R20); `inputs`, `answers` and `oracleIndex`
are its environment's (log 1, log 2); `busTrace` and `responses` are the observer's record (R34; log 6). -/
structure State where
  lifecycle : Lifecycle
  work : Option Work
  inputs : List HostInput
  answers : List Answer
  oracleIndex : Nat
  busTrace : List BusRecord
  responses : List Response
deriving DecidableEq, Repr

/-- Why a step can stop. -/
inductive Fault where
  /-- Raised by any accepted command when the sensor's answer to a transaction the command reaches is
  `Answer.never`: the spec's stuck state, in which no next state exists and no timeout is invented (R240;
  log 3). It is not the BusIOError of R210, which is a response. Safe: the model stops where the hardware
  hangs. -/
  | transactionNeverCompletes
deriving DecidableEq, Repr

/-- Why an instruction has no meaning. The spec's own REFUSED is a response and a next state (R214;
log 4), never one of these. -/
inductive Refusal where
  /-- Raised by an arm of `exec` whose instruction has not been given its meaning. Safe. No arm is in
  this state. -/
  | notModelled (mnemonic : String)
deriving DecidableEq, Repr

/-- The machine right after hardware reset (R231): `UNCONSTRUCTED`, no working register holds a value,
the command port is idle. The environment's and the observer's fields are empty (log 1, log 2, log 6). -/
def State.reset : State where
  lifecycle := .unconstructed
  work := none
  inputs := []
  answers := []
  oracleIndex := 0
  busTrace := []
  responses := []

end Sys2Proof.Machine
end

