-- ==== Sys2Proof/Machine/Ops.lean ====
section
/-! DEFINITION. The shared operations: the sensor's oracle, the bus transactions of a command, the three
ways a command ends (completed, BusIOError, Refused), and hardware reset. -/

namespace Sys2Proof.Machine

/-- The bytes the engine drives on the bus for a transaction after device selection: the command byte of
a read, or register and payload of a write (R42, R44, R79). -/
def Txn.frame : Txn → List Byte
  | .read reg _ => [reg]
  | .write reg payload => [reg, payload]

/-- One of the next `n` transactions never completes, all before it having succeeded (R240). Past the
listed answers nothing hangs (log 3). -/
def hangs : Nat → List Answer → Bool
  | 0, _ => false
  | _ + 1, [] => false
  | n + 1, .ok _ :: rest => hangs n rest
  | _ + 1, .fail :: _ => false
  | _ + 1, .never :: _ => true

/-- The `j`-th transaction from here on fails: as its listed answer says, and freely past the list
(R47, R212). A transaction that never completes has not failed (R240). -/
def State.answerFails (s : State) (j : Nat) : Bool :=
  match s.answers[j]? with
  | some (.ok _) => false
  | some .fail => true
  | some .never => false
  | none => Config.freeFails (s.oracleIndex + j)

/-- Byte `i` that the sensor delivers in the `j`-th transaction from here on: as its listed answer says,
and free where that says nothing (R47; log 23). -/
def State.answerByte (s : State) (j i : Nat) : Byte :=
  match s.answers[j]? with
  | some (.ok bytes) => bytes.getD i (Config.freeByte (s.oracleIndex + j) i)
  | some .fail => Config.freeByte (s.oracleIndex + j) i
  | some .never => Config.freeByte (s.oracleIndex + j) i
  | none => Config.freeByte (s.oracleIndex + j) i

/-- The first `n` bytes of an answer, as the block a read of length `n` delivers (R42). -/
def takeBlock (bytes : Nat → Byte) (n : Nat) : Block n := fun i => bytes i.val

/-- The index of the first of the next `n` transactions that fails (R210, R213). -/
def State.firstFailure (s : State) (n : Nat) : Option Nat := (List.range n).find? s.answerFails

/-- The next `n` transactions all complete with success. -/
def State.busSucceeds (s : State) (n : Nat) : Bool := !hangs n s.answers && (s.firstFailure n).isNone

/-- What the `j`-th transaction from here on, being `t`, is answered (R42, R44). -/
def State.reply (s : State) (j : Nat) (t : Txn) : Reply :=
  if s.answerFails j then .failed
  else
    match t with
    | .read _ len => .data (List.ofFn (takeBlock (s.answerByte j) len))
    | .write _ _ => .done

/-- The observer's records of these transactions, issued in this order to this device (R34, R58, R79). -/
def State.records (s : State) (dev : DevAddr) (txns : List Txn) : List BusRecord :=
  txns.zipIdx.map fun p => { dev := dev, txn := p.1, reply := s.reply p.2 p.1 }

/-- These transactions have been issued to this device, in this order: each took one answer of the
oracle and the observer has seen it (R58). No engine state changes. -/
def State.issue (s : State) (dev : DevAddr) (txns : List Txn) : State :=
  { s with
    answers := s.answers.drop txns.length
    oracleIndex := s.oracleIndex + txns.length
    busTrace := s.busTrace ++ s.records dev txns }

/-- The command ends and its response is delivered (R78). -/
def State.respond (s : State) (r : Response) : State := { s with responses := s.responses ++ [r] }

/-- Taking the exception BusIOError: the command ends, nothing of the engine's state is saved or changed,
and the response carries the index of the failing transaction (R210, R213, R220). There is no return
from it: the next command is a new command (R221). -/
def State.busIoError (s : State) (i : Nat) : State := s.respond (.busIoError i)

/-- The command is refused: no transaction, no state change (R214). -/
def State.refuse (s : State) : State := s.respond .refused

/-- The accepted command's transactions, queried in order (R224): stuck where one never completes; at the
first failure the exception, with the transactions up to the failing one issued and no later one; after
all of them `complete`, given the bytes of each answer and the state with all of them issued. -/
def transact (dev : DevAddr) (txns : List Txn) (complete : (Nat → Nat → Byte) → State → State) (s : State) :
    Host.Outcome State Fault Refusal :=
  if hangs txns.length s.answers then .fault .transactionNeverCompletes
  else .next
    (match s.firstFailure txns.length with
    | some i => (s.issue dev (txns.take (i + 1))).busIoError i
    | none => complete s.answerByte (s.issue dev txns))

/-- The acceptance check of every command but CONSTRUCT, made before any transaction: refused in
`UNCONSTRUCTED`, where neither the device address nor the coefficient file holds a value (R187, R214,
R219). -/
def whenReady (s : State) (run : DevAddr → Calibration → Host.Outcome State Fault Refusal) :
    Host.Outcome State Fault Refusal :=
  match s.lifecycle with
  | .unconstructed => .next s.refuse
  | .ready dev cal => run dev cal

/-- Hardware reset, between commands: back to `UNCONSTRUCTED`, no register holds a value, and no bus
transaction is issued (R230, R231). -/
def State.hardwareReset (s : State) : State := { s with lifecycle := .unconstructed, work := none }

end Sys2Proof.Machine
end

