-- ==== Sys2Proof/Machine/ConfigWrites.lean ====
section
/-! DEFINITION. The four single-register writes: RESET, WRITE_CONFIG, WRITE_CTRL_MEAS, WRITE_CTRL_HUM
(R187 to R203). None reads the register back or keeps a copy (R188). -/

namespace Sys2Proof.Machine

/-- A fire-and-forget register write: accepted in `READY`, one transaction, the response OK (R187 to
R189). -/
def writeRegister (reg : RegAddr) (payload : Byte) (s : State) : Host.Outcome State Fault Refusal :=
  whenReady s fun dev _ => transact dev [.write reg payload] (fun _ t => t.respond .ok) s

/-- RESET of the sensor (R192); the engine keeps its lifecycle, address and coefficients (R193). -/
def execReset (s : State) : Host.Outcome State Fault Refusal := writeRegister 0xE0 resetMagic s

/-- WRITE_CONFIG (R195). -/
def execWriteConfig (standby filter : BitVec 3) (spi3w : BitVec 1) (s : State) : Host.Outcome State Fault Refusal :=
  writeRegister 0xF5 (configPayload standby filter spi3w) s

/-- WRITE_CTRL_MEAS (R198, R199). -/
def execWriteCtrlMeas (tempOs pressOs : BitVec 3) (mode : BitVec 2) (s : State) : Host.Outcome State Fault Refusal :=
  writeRegister 0xF4 (ctrlMeasPayload params.tOsShift tempOs pressOs mode) s

/-- WRITE_CTRL_HUM (R202). -/
def execWriteCtrlHum (os : BitVec 3) (s : State) : Host.Outcome State Fault Refusal :=
  writeRegister 0xF2 (ctrlHumPayload os) s

end Sys2Proof.Machine
end

