-- ==== Sys2Proof/Machine/Calibration.lean ====
section
/-! DEFINITION. The calibration unpack CalUnpack (R104 to R111) and the coefficients' values as the
compensators read them (R21, R22). -/

namespace Sys2Proof.Machine

/-- Field `k` of calibration block 1: `w_k = le16(b24[2k], b24[2k+1])` (R104). -/
def blockField (b24 : Block 24) (k : Fin 12) : BitVec 16 :=
  le16 (b24 ⟨2 * k.val, by omega⟩) (b24 ⟨2 * k.val + 1, by omega⟩)

/-- A 12-bit coefficient from its high byte and the nibble below it (R109, R110). -/
def nibbleCombine (high low : Byte) : BitVec 12 := (high.setWidth 12 <<< 4) ||| low.setWidth 12

/-- `H4 = (byte_e4 << 4) | (byte_e5 & 0x0F)` (R109). -/
def unpackH4 (b8 : Block 8) : BitVec 12 := nibbleCombine (b8 3) (b8 4 &&& 0x0F)

/-- `H5 = (byte_e6 << 4) | (byte_e5 >> 4)` (R110). -/
def unpackH5 (b8 : Block 8) : BitVec 12 := nibbleCombine (b8 5) (b8 4 >>> 4)

/-- CalUnpack: 24 + 1 + 8 bytes to the 18 coefficients (R104 to R110). Byte 7 of the last block is read
and ignored (R111); nothing is validated (R113). -/
def calUnpack (b24 : Block 24) (b1 : Block 1) (b8 : Block 8) : Calibration where
  T1 := blockField b24 0
  T2 := blockField b24 1
  T3 := blockField b24 2
  P1 := blockField b24 3
  P2 := blockField b24 4
  P3 := blockField b24 5
  P4 := blockField b24 6
  P5 := blockField b24 7
  P6 := blockField b24 8
  P7 := blockField b24 9
  P8 := blockField b24 10
  P9 := blockField b24 11
  H1 := b1 0
  H2 := le16 (b8 0) (b8 1)
  H3 := b8 2
  H4 := unpackH4 b8
  H5 := unpackH5 b8
  H6 := b8 6

/-- The value of a 12-bit humidity coefficient: its bits as they stand, or sign-extended where
`H45_SIGNED` says so (R109, R110; log 12). -/
def h45Value (signed : Bool) (w : BitVec 12) : Int :=
  if signed && decide (2048 ≤ w.toNat) then (w.toNat : Int) - 4096 else (w.toNat : Int)

/-- T1 is unsigned, T2 and T3 are signed (R21, R105, R106). -/
def Calibration.tCoeffs (cal : Calibration) : Config.TCoeffs where
  t1 := cal.T1.toNat
  t2 := sext16 cal.T2
  t3 := sext16 cal.T3

/-- P1 is unsigned, P2 to P9 are signed (R21, R105, R106). -/
def Calibration.pCoeffs (cal : Calibration) : Config.PCoeffs where
  p1 := cal.P1.toNat
  p2 := sext16 cal.P2
  p3 := sext16 cal.P3
  p4 := sext16 cal.P4
  p5 := sext16 cal.P5
  p6 := sext16 cal.P6
  p7 := sext16 cal.P7
  p8 := sext16 cal.P8
  p9 := sext16 cal.P9

/-- H1 and H3 are unsigned, H2 and H6 signed, H4 and H5 by `H45_SIGNED` (R21, R107 to R110). -/
def Calibration.hCoeffs (h45Signed : Bool) (cal : Calibration) : Config.HCoeffs where
  h1 := cal.H1.toNat
  h2 := sext16 cal.H2
  h3 := cal.H3.toNat
  h4 := h45Value h45Signed cal.H4
  h5 := h45Value h45Signed cal.H5
  h6 := sext8 cal.H6

end Sys2Proof.Machine
end

