-- ==== Sys2Proof/Machine/Construct.lean ====
section
/-! DEFINITION. The command CONSTRUCT (R100 to R113). -/

namespace Sys2Proof.Machine

/-- The read of a calibration block (R50, R79, R102). -/
def calRead : Config.CalBlock → Txn
  | .block88 => .read 0x88 24
  | .blockA1 => .read 0xA1 1
  | .blockE1 => .read 0xE1 8

/-- The bytes of a calibration block among the answers of the reads made in this order. -/
def calBytes (order : List Config.CalBlock) (bytes : Nat → Nat → Byte) (b : Config.CalBlock) : Nat → Byte :=
  bytes (order.idxOf b)

/-- The coefficient file of the three blocks read in this order (R100, R102). -/
def calFromReads (order : List Config.CalBlock) (bytes : Nat → Nat → Byte) : Calibration :=
  calUnpack (takeBlock (calBytes order bytes .block88) 24) (takeBlock (calBytes order bytes .blockA1) 1)
    (takeBlock (calBytes order bytes .blockE1) 8)

/-- The commit: coefficients, device address and lifecycle state in one update, and the response OK
(R112). -/
def commitDevice (address : DevAddr) (bytes : Nat → Nat → Byte) (s : State) : State :=
  { s with lifecycle := .ready address (calFromReads params.calOrder bytes) }.respond .ok

/-- CONSTRUCT is accepted in `UNCONSTRUCTED`, and in `READY` only where `RECONSTRUCT` is replace (R101). -/
def constructAccepted (r : Config.Reconstruct) (l : Lifecycle) : Bool :=
  match l, r with
  | .unconstructed, _ => true
  | .ready _ _, .replace => true
  | .ready _ _, .refuse => false

/-- CONSTRUCT (R100): the three calibration reads at device address `address`, then the commit. -/
def execConstruct (address : DevAddr) (s : State) : Host.Outcome State Fault Refusal :=
  if constructAccepted params.reconstruct s.lifecycle then
    transact address (params.calOrder.map calRead) (commitDevice address) s
  else .next s.refuse

end Sys2Proof.Machine
end

