-- ==== Sys2Proof/Machine/RegisterReads.lean ====
section
/-! DEFINITION. The two single-register reads: READ_ID (R190) and READ_STATUS (R204). -/

namespace Sys2Proof.Machine

/-- A one-byte register read: accepted in `READY`, one transaction, the response made from the byte
(R187 to R189). -/
def readRegister (reg : RegAddr) (answer : Byte → Response) (s : State) : Host.Outcome State Fault Refusal :=
  whenReady s fun dev _ => transact dev [.read reg 1] (fun bytes t => t.respond (answer (bytes 0 0))) s

/-- READ_ID (R190): the identity byte as it is, not validated. -/
def execReadId (s : State) : Host.Outcome State Fault Refusal := readRegister 0xD0 (fun v => .id v) s

/-- The response of READ_STATUS: two bits of the byte, the others ignored (R204, R205). -/
def statusResponse (c : Config.Params) (st : Byte) : Response :=
  .status (statusBit st c.stMeasuringBit) (statusBit st c.stImUpdateBit)

/-- READ_STATUS (R204). -/
def execReadStatus (s : State) : Host.Outcome State Fault Refusal := readRegister 0xF3 (statusResponse params) s

end Sys2Proof.Machine
end

