-- ==== Sys2Proof/Machine/Float64.lean ====
section
/-! DEFINITION. Binary64 as the output converter uses it (R15, R170, R171): patterns, the rational value of
a finite pattern, integer-to-float conversion and division, correctly rounded. -/

namespace Sys2Proof.Machine

/-- The sign bit (R170). -/
def f64Neg (x : F64) : Bool := x.msb

/-- The biased exponent field, 11 bits (R170). -/
def f64Exp (x : F64) : Nat := x.toNat / 2 ^ 52 % 2 ^ 11

/-- The fraction field, 52 bits (R170). -/
def f64Frac (x : F64) : Nat := x.toNat % 2 ^ 52

/-- Neither an infinity nor a NaN. -/
def f64Finite (x : F64) : Bool := decide (f64Exp x ≠ 2047)

/-- A normal number: neither zero, subnormal, infinite nor NaN. -/
def f64Normal (x : F64) : Bool := decide (f64Exp x ≠ 0) && f64Finite x

/-- The integer significand, with the implicit bit of a normal number. -/
def f64Mant (x : F64) : Nat := if f64Exp x = 0 then f64Frac x else f64Frac x + 2 ^ 52

/-- The exponent of the significand's last bit, plus 1075. -/
def f64Scale (x : F64) : Nat := max (f64Exp x) 1

/-- The numerator of the magnitude of a finite pattern. -/
def f64Num (x : F64) : Nat := f64Mant x * 2 ^ (f64Scale x - 1075)

/-- The denominator of the magnitude of a finite pattern. -/
def f64Den (x : F64) : Nat := 2 ^ (1075 - f64Scale x)

/-- The rational value of a finite pattern (R170: bias 1023, 52 fraction bits). -/
def f64Value (x : F64) : ℚ := (if f64Neg x then -1 else 1) * (f64Num x / f64Den x)

/-- `r` is the binary64 nearest to the rational `q`, ties to the even last fraction bit (R171). -/
def IsNearest (r : F64) (q : ℚ) : Prop :=
  f64Finite r = true ∧ ∀ y : F64, |f64Value r - q| ≤ |f64Value y - q| ∧
    (f64Value y ≠ f64Value r → |f64Value y - q| = |f64Value r - q| → r.getLsbD 0 = false)

/-- `floor (log2 (n / d))` for positive `n` and `d`. -/
def ratLog2 (n d : Nat) : Int :=
  let k : Int := (Nat.log2 n : Int) - (Nat.log2 d : Int)
  if d * 2 ^ k.toNat ≤ n * 2 ^ (-k).toNat then k else k - 1

/-- The integer nearest to `n / d`, by the rounding mode of R171: ties to the even integer. -/
def roundInt (mode : Config.Rounding) (n d : Nat) : Nat :=
  match mode with
  | .tiesToEven =>
    if d < 2 * (n % d) ∨ (d = 2 * (n % d) ∧ n / d % 2 = 1) then n / d + 1 else n / d

/-- The magnitude pattern of the binary64 nearest to `n / d` for positive `n` and `d`: the significand is
rounded at the last bit of the binade, a carry moves to the next binade, and a magnitude beyond the
greatest finite one is the infinity of IEEE 754 (never reached here, R171; log 21). -/
def roundMagnitude (mode : Config.Rounding) (n d : Nat) : Nat :=
  let e : Int := max (ratLog2 n d) (-1022)
  min ((e + 1022).toNat * 2 ^ 52 + roundInt mode (n * 2 ^ (52 - e).toNat) (d * 2 ^ (e - 52).toNat))
    (2047 * 2 ^ 52)

/-- A pattern from its sign and its magnitude bits. -/
def f64OfBits (neg : Bool) (magnitude : Nat) : F64 :=
  BitVec.ofNat 64 ((if neg then 2 ^ 63 else 0) + magnitude)

/-- The binary64 nearest to `± n / d`, for positive `d`. -/
def roundRatio (mode : Config.Rounding) (neg : Bool) (n d : Nat) : F64 :=
  f64OfBits neg (if n = 0 then 0 else roundMagnitude mode n d)

/-- `i2f(n)`: the binary64 nearest to the integer `n`, ties to even; `i2f(0)` is +0.0 (R171). -/
def i2f (mode : Config.Rounding) (n : Int) : F64 := roundRatio mode (decide (n < 0)) n.natAbs 1

/-- `fdiv(a, b)`: the binary64 nearest to the quotient of the values, ties to even (R171). A pattern that
is not finite, or a zero divisor, never arises; its quotient is a free value (log 21). -/
def fdiv (mode : Config.Rounding) (a b : F64) : F64 :=
  if f64Finite a && f64Finite b && decide (f64Mant b ≠ 0) then
    roundRatio mode (f64Neg a ^^ f64Neg b) (f64Num a * f64Den b) (f64Den a * f64Num b)
  else Config.freeQuotient a b

/-- 100.0 (R171). -/
def f64Hundred : F64 := 0x4059000000000000

/-- 256.0 (R171). -/
def f64TwoFiftySix : F64 := 0x4070000000000000

/-- 1024.0 (R171). -/
def f64TenTwentyFour : F64 := 0x4090000000000000

end Sys2Proof.Machine
end

