-- ==== Sys2Proof/Machine/Output.lean ====
section
/-! DEFINITION. The fixed-to-floating output converter (R170 to R176). -/

namespace Sys2Proof.Machine

/-- `T_centi / 100` in degrees Celsius (R172). -/
def convertTemperature (mode : Config.Rounding) (tCenti : Int) : F64 := fdiv mode (i2f mode tCenti) f64Hundred

/-- `P_q8 / 256`, then `/ 100`, in hPa (R173). -/
def convertPressure (mode : Config.Rounding) (pQ8 : Int) : F64 :=
  fdiv mode (fdiv mode (i2f mode pQ8) f64TwoFiftySix) f64Hundred

/-- `H_q10 / 1024` in percent (R175). -/
def convertHumidity (mode : Config.Rounding) (hQ10 : Int) : F64 := fdiv mode (i2f mode hQ10) f64TenTwentyFour

/-- The tagged pressure: the typed sentinel where `P_q8` holds no value, without any floating-point
operation (R173, R174). -/
def pressureOf (mode : Config.Rounding) : Option Int → Pressure
  | none => .invalid
  | some q => .value (convertPressure mode q)

/-- The Measurement of the working registers (R172 to R176). -/
def convert (mode : Config.Rounding) (w : Work) : Measurement where
  temperature := convertTemperature mode w.tCenti
  pressure := pressureOf mode w.pQ8
  humidity := convertHumidity mode w.hQ10

end Sys2Proof.Machine
end

