-- ==== Sys2Proof/Machine/RawDecode.lean ====
section
/-! DEFINITION. The register decoder: one 8-byte burst to the three raw values (R120 to R124). -/

namespace Sys2Proof.Machine

/-- `(MSB << 12) | (LSB << 4) | (XLSB >> XLSB_SHIFT)`, a 20-bit value whose parts overlap for the shift
that R8 takes (R121, R122; log 10). -/
def raw20 (xlsbShift : Nat) (msb lsb xlsb : Byte) : BitVec 20 :=
  (msb.setWidth 20 <<< 12) ||| (lsb.setWidth 20 <<< 4) ||| (xlsb >>> xlsbShift).setWidth 20

/-- `(MSB << 8) | LSB` (R123). -/
def raw16 (msb lsb : Byte) : BitVec 16 := (msb.setWidth 16 <<< 8) ||| lsb.setWidth 16

/-- RawDecode: pressure from bytes 0 to 2, temperature from bytes 3 to 5, humidity from bytes 6 and 7,
most significant byte first; every byte value is accepted (R120 to R124). -/
def rawDecode (xlsbShift : Nat) (b : Block 8) : RawSample where
  pRaw := raw20 xlsbShift (b 0) (b 1) (b 2)
  tRaw := raw20 xlsbShift (b 3) (b 4) (b 5)
  hRaw := raw16 (b 6) (b 7)

end Sys2Proof.Machine
end

