-- ==== Sys2Proof/Machine/Status.lean ====
section
/-! DEFINITION. The command STATUS (R180 to R185): one burst read, then the stages. -/

namespace Sys2Proof.Machine

/-- The stages of STATUS in R183's order, a function of the coefficient file and the eight bytes: decode,
temperature, and from its `t_fine` pressure and humidity. -/
def runStages (c : Config.Params) (cal : Calibration) (b : Block 8) : Work :=
  let raw := rawDecode c.xlsbShift b
  let t := c.compT c.arith cal.tCoeffs raw.tRaw.toNat
  { raw := raw
    tFine := t.tFine
    tCenti := t.tCenti
    pQ8 := c.compP c.arith c.divMode cal.pCoeffs raw.pRaw.toNat t.tFine
    hQ10 := c.compH c.arith (cal.hCoeffs c.h45Signed) raw.hRaw.toNat t.tFine }

/-- The stages write the working registers (R24, R25). -/
def State.measure (s : State) (cal : Calibration) (b : Block 8) : State :=
  { s with work := some (runStages params cal b) }

/-- The converter reads the working registers, the Measurement is delivered, and the registers hold no
value any more (R20, R30, R180). -/
def State.deliver (s : State) : State :=
  match s.work with
  | none => s
  | some w => { s with work := none }.respond (.meas (convert params.f64Round w))

/-- STATUS (R180): accepted in `READY`, one burst read at register 0xF7, the stages, the response MEAS. -/
def execStatus (s : State) : Host.Outcome State Fault Refusal :=
  whenReady s fun dev cal =>
    transact dev [.read 0xF7 8] (fun bytes t => (t.measure cal (takeBlock (bytes 0) 8)).deliver) s

end Sys2Proof.Machine
end

