-- ==== Sys2Proof/Machine/Dispatch.lean ====
section
/-! DEFINITION. The meaning of each command: one arm per constructor of Instr. -/

namespace Sys2Proof.Machine

def exec (i : Instr) (s : State) : Host.Outcome State Fault Refusal :=
  match i with
  | .construct address => Sys2Proof.Machine.execConstruct address s
  | .status => Sys2Proof.Machine.execStatus s
  | .readId => Sys2Proof.Machine.execReadId s
  | .reset => Sys2Proof.Machine.execReset s
  | .writeConfig standby filter spi3w => Sys2Proof.Machine.execWriteConfig standby filter spi3w s
  | .writeCtrlMeas tempOs pressOs mode => Sys2Proof.Machine.execWriteCtrlMeas tempOs pressOs mode s
  | .writeCtrlHum os => Sys2Proof.Machine.execWriteCtrlHum os s
  | .readStatus => Sys2Proof.Machine.execReadStatus s

end Sys2Proof.Machine
end

