-- ==== Sys2Proof/Machine/Port.lean ====
section
/-! DEFINITION. The host's two inputs: a command word on the command port and the hardware reset input. -/

namespace Sys2Proof.Machine

/-- What a step does with the host's next input, the state already being past it. -/
def respondTo (input : HostInput) (s : State) : Host.Outcome State Fault Refusal :=
  match input with
  | .command w => exec (decode w) s
  | .hardwareReset => .next s.hardwareReset

end Sys2Proof.Machine
end

