-- ==== Sys2Proof/Machine/Step.lean ====
section
/-! DEFINITION. One step of the machine: one host command from acceptance to outcome (R6), one hardware
reset between commands (R230), or idling while the host gives nothing (R231, R249). -/

namespace Sys2Proof.Machine

/-- The step (R6, R70). -/
def step (s : State) : Host.Outcome State Fault Refusal :=
  match s.inputs with
  | [] => .next s
  | input :: rest => respondTo input { s with inputs := rest }

/-- The state with this command word next on the command port. The engine has no program counter and no
instruction memory (R28, R61), so this is all it takes for the next step to run it (log 1). -/
def State.withFetchWord (s : State) (nbits w : Nat) : State :=
  { s with inputs := .command (BitVec.ofNat 16 (w % 2 ^ nbits)) :: s.inputs }

end Sys2Proof.Machine
end

