-- ==== Sys2Proof/Machine/Assembler.lean ====
section
/-! DEFINITION. The assembler of R86 on parsed lines: a number or a symbolic name for each operand becomes
the command's field. A number that does not fit its field does not assemble (log 24). -/

namespace Sys2Proof.Machine

/-- The number of an operand: itself, or the code of its name (R86). -/
def operandCode {α : Type} (code : α → Nat) : Operand α → Nat
  | .num n => n
  | .sym name => code name

/-- A number as an operand field of `n` bits, where it fits. -/
def fit (n v : Nat) : Option (BitVec n) := if v < 2 ^ n then some (BitVec.ofNat n v) else none

/-- The command of an assembler line (R86). -/
def assemble : AsmLine → Option Instr
  | .construct address => (fit params.addrW address).map .construct
  | .status => some .status
  | .readId => some .readId
  | .reset => some .reset
  | .writeConfig standby filter spi3w => do
    let standby ← fit 3 (operandCode standbyCode standby)
    let filter ← fit 3 (operandCode filterCode filter)
    let spi3w ← fit 1 spi3w
    some (.writeConfig standby filter spi3w)
  | .writeCtrlMeas tempOs pressOs mode => do
    let tempOs ← fit 3 (operandCode oversamplingCode tempOs)
    let pressOs ← fit 3 (operandCode oversamplingCode pressOs)
    let mode ← fit 2 (operandCode modeCode mode)
    some (.writeCtrlMeas tempOs pressOs mode)
  | .writeCtrlHum os => (fit 3 (operandCode oversamplingCode os)).map .writeCtrlHum
  | .readStatus => some .readStatus

end Sys2Proof.Machine
end

