-- ==== Sys2Proof/Machine/Envelope.lean ====
section
/-! DEFINITION. The 64-bit envelopes (R152, R166) and the compensators on a 64-bit two's-complement
datapath, which R135, R152, R166 and R243 compare with the exact ones. No step of the machine uses this
file: the machine computes exactly (R10). -/

namespace Sys2Proof.Machine

/-- The `s64` range of R10. -/
def fits64 (z : Int) : Bool := decide (-(2 ^ 63) ≤ z) && decide (z < 2 ^ 63)

/-- The values of R141 to R144 and the products formed on the way to them (R152). -/
def presDenominatorValues (c : Config.PCoeffs) (v : Int) : List Int :=
  [v, v * v, v * v * c.p6, v * c.p5, v * v * c.p6 + shl (v * c.p5) 17, presVar2 c v,
    v * v * c.p3, v * c.p2, presD1 c v, presD2 c v, presVar1 c v]

/-- The values of R145 to R148, `p1` being the quotient, and the products formed on the way (R152). -/
def presQuotientValues (c : Config.PCoeffs) (pRaw v p1 : Int) : List Int :=
  [presP0 pRaw, shl (presP0 pRaw) 31 - presVar2 c v, presNum c pRaw v, p1,
    c.p9 * shr p1 13, c.p9 * shr p1 13 * shr p1 13, presW1 c p1, c.p8 * p1, presW2 c p1,
    p1 + presW1 c p1 + presW2 c p1, presQ8 c p1]

/-- `Fits64` of R152: the input lies in the pressure compensator's 64-bit envelope. On the sentinel path
nothing after the denominator is computed. -/
def presFits64 (mode : Config.DivMode) (c : Config.PCoeffs) (pRaw tFine : Int) : Bool :=
  let v := presV tFine
  (presDenominatorValues c v).all fits64 &&
    (decide (presVar1 c v = 0) || (presQuotientValues c pRaw v (presP1 mode c pRaw v)).all fits64)

/-- The values of R156 to R161 and the products formed on the way (R166). DESIGN CHOICE: R166 names the
square of `y >> 15` "and its product with H1"; that product is taken as R161 forms it, the square shifted
right by 7 times H1, and not as the bare square times H1 (log 30). -/
def humValues (c : Config.HCoeffs) (hRaw x : Int) : List Int :=
  let y := humY c hRaw x
  [x, c.h5 * x, shl hRaw 14 - shl c.h4 20 - c.h5 * x + 16384, humA c hRaw x, x * c.h6, humB1 c x, x * c.h3,
    humB2 c x, humB1 c x * humB2 c x, humB3 c x, humB3 c x * c.h2, humB3 c x * c.h2 + 8192, humB c x, y,
    shr y 15 * shr y 15, shr (shr y 15 * shr y 15) 7 * c.h1, humZ c y, humW c hRaw x]

/-- The humidity compensator's 64-bit envelope (R166). -/
def humFits64 (c : Config.HCoeffs) (hRaw tFine : Int) : Bool := (humValues c hRaw (humX tFine)).all fits64

/-- A 64-bit two's-complement register. -/
abbrev Reg64 := BitVec 64

/-- An integer as a register holds it. -/
def reg (z : Int) : Reg64 := BitVec.ofInt 64 z

/-- The arithmetic right shift of a register. -/
def sar (v : Reg64) (n : Nat) : Reg64 := v.sshiftRight n

/-- A register division that rounds as `DIV_MODE` (R152). -/
def idiv64 (mode : Config.DivMode) (n d : Reg64) : Reg64 :=
  match mode with
  | .trunc => n.sdiv d
  | .floor => if n.srem d ≠ 0 ∧ n.msb ≠ d.msb then n.sdiv d - 1 else n.sdiv d

/-- CompT on 64-bit registers. -/
def compT64 (c : Config.TCoeffs) (tRaw : Int) : Reg64 × Reg64 :=
  let var1 := sar ((sar (reg tRaw) 3 - reg c.t1 <<< 1) * reg c.t2) 11
  let d := sar (reg tRaw) 4 - reg c.t1
  let var2 := sar (sar (d * d) 12 * reg c.t3) 14
  let tFine := var1 + var2
  (tFine, sar (tFine * 5 + 128) 8)

/-- CompP on 64-bit registers. -/
def compP64 (mode : Config.DivMode) (c : Config.PCoeffs) (pRaw tFine : Int) : Option Reg64 :=
  let v := reg tFine - 128000
  let var2 := v * v * reg c.p6 + (v * reg c.p5) <<< 17 + reg c.p4 <<< 35
  let d1 := sar (v * v * reg c.p3) 8 + (v * reg c.p2) <<< 12
  let var1 := sar (((1 : Reg64) <<< 47 + d1) * reg c.p1) 33
  if var1 = 0 then none
  else
    let p0 := 1048576 - reg pRaw
    let p1 := idiv64 mode ((p0 <<< 31 - var2) * 3125) var1
    let w1 := sar (reg c.p9 * sar p1 13 * sar p1 13) 25
    let w2 := sar (reg c.p8 * p1) 19
    some (sar (p1 + w1 + w2) 8 + reg c.p7 <<< 4)

/-- CompH on 64-bit registers, the clamp by signed comparison. -/
def compH64 (c : Config.HCoeffs) (hRaw tFine : Int) : Reg64 :=
  let x := reg tFine - 76800
  let a := sar (reg hRaw <<< 14 - reg c.h4 <<< 20 - reg c.h5 * x + 16384) 15
  let b1 := sar (x * reg c.h6) 10
  let b2 := sar (x * reg c.h3) 11 + 32768
  let b3 := sar (b1 * b2) 10 + 2097152
  let b := sar (b3 * reg c.h2 + 8192) 14
  let y := a * b
  let z := sar (sar (sar y 15 * sar y 15) 7 * reg c.h1) 4
  let w := y - z
  sar (if w.slt 0 then 0 else if (419430400 : Reg64).slt w then 419430400 else w) 12

end Sys2Proof.Machine
end

