-- ==== Sys2Proof/Machine/Flags.lean ====
section
/-! DEFINITION. The engine's two one-bit conditions, both derived values and not stored state (R27), and
the bits in which a response shows the pressure (R78). -/

namespace Sys2Proof.Machine

/-- `cal_valid`: 1 exactly in `READY` (R26, R27). -/
def State.calValid (s : State) : Bool :=
  match s.lifecycle with
  | .unconstructed => false
  | .ready _ _ => true

/-- `p_invalid`: the pressure compensator answered its sentinel (R27, R144). -/
def Work.pInvalid (w : Work) : Bool := w.pQ8.isNone

/-- The response's flag bit `p_invalid` (R78). -/
def Pressure.flag : Pressure → Bool
  | .value _ => false
  | .invalid => true

/-- The response's 64-bit pressure word: all zero for the sentinel (R78, R174). -/
def Pressure.word : Pressure → BitVec 64
  | .value x => x
  | .invalid => 0

/-- The kind code of a response (R78). -/
def Response.code : Response → Nat
  | .ok => 0
  | .meas _ => 1
  | .id _ => 2
  | .status _ _ => 3
  | .busIoError _ => 4
  | .refused => 5

end Sys2Proof.Machine
end

