-- ==== Sys2Proof/Safety.lean ====
section
/-! DEFINITION. What counts as a safe run of the engine, in the terms the statements use: the sensor never
hangs, every bus transaction is one of the register map's, a Device's coefficients are those it read. -/

namespace Sys2Proof.Machine

/-- No listed answer is a transaction that never completes: the transport keeps its contract of returning
bytes or failing (R240). -/
def NeverHangs (s : State) : Prop := Answer.never ∉ s.answers

/-- The transactions of the register map: R50's addresses in R54's widths, the reset register only ever
written with its magic value (R192), the always-zero bits of `config` and `ctrl_hum` (R29). -/
def Txn.legal : Txn → Bool
  | .read reg len => decide ((reg, len) ∈ [((0x88 : RegAddr), 24), (0xA1, 1), (0xE1, 8), (0xF7, 8), (0xD0, 1), (0xF3, 1)])
  | .write reg payload =>
      (decide (reg = 0xE0) && decide (payload = 0xB6)) || (decide (reg = 0xF5) && !payload.getLsbD 1) ||
        decide (reg = 0xF4) || (decide (reg = 0xF2) && decide (payload.toNat < 8))

/-- The bus record of a read that delivered this block. -/
def readRecord (dev : DevAddr) (reg : RegAddr) {n : Nat} (b : Block n) : BusRecord :=
  { dev := dev, txn := .read reg n, reply := .data (List.ofFn b) }

/-- A Device is never observable with unread calibration: in `READY` the bus has seen, at the stored
address and one after the other, the three calibration reads whose bytes unpack to the coefficient file,
and from then on transactions with that address only (R26, R100, R103, R112). -/
def CalibrationWasRead (s : State) : Prop :=
  ∀ dev cal, s.lifecycle = .ready dev cal →
    ∃ (before after : List BusRecord) (b24 : Block 24) (b1 : Block 1) (b8 : Block 8),
      s.busTrace = before ++ [readRecord dev 0x88 b24, readRecord dev 0xA1 b1, readRecord dev 0xE1 b8] ++ after ∧
      cal = calUnpack b24 b1 b8 ∧ ∀ r ∈ after, r.dev = dev

/-- Every transaction the engine ever issued is one of the register map's (R50, R51, R54). -/
def BusIsLegal (s : State) : Prop := ∀ r ∈ s.busTrace, r.txn.legal = true

/-- Between commands no working register holds a value (R24, R25, R231). -/
def WorkIsEmpty (s : State) : Prop := s.work = none

/-- The engine's own state, without its environment's and its observer's fields (R20). -/
def State.engine (s : State) : Lifecycle × Option Work := (s.lifecycle, s.work)

/-- A little-endian 16-bit field read in two's complement, from its two bytes' values. -/
def signedField (lo hi : Byte) : Int :=
  if hi.toNat < 128 then hi.toNat * 256 + lo.toNat else (hi.toNat : Int) * 256 + lo.toNat - 65536

/-- R79's table: the transactions of each command in order, each payload written out bit by bit as R195,
R199 and R202 give it. The machine does not use this table; the statements hold the machine against it. -/
def transactionsOf : Instr → List Txn
  | .construct _ => [.read 0x88 24, .read 0xA1 1, .read 0xE1 8]
  | .status => [.read 0xF7 8]
  | .readId => [.read 0xD0 1]
  | .reset => [.write 0xE0 0xB6]
  | .writeConfig standby filter spi3w => [.write 0xF5 (standby ++ filter ++ 0#1 ++ spi3w)]
  | .writeCtrlMeas tempOs pressOs mode => [.write 0xF4 (tempOs.extractLsb' 0 1 ++ 0#2 ++ pressOs ++ mode)]
  | .writeCtrlHum os => [.write 0xF2 (0#5 ++ os)]
  | .readStatus => [.read 0xF3 1]

/-- The stored device address, where there is a Device. -/
def Lifecycle.device : Lifecycle → Option DevAddr
  | .unconstructed => none
  | .ready dev _ => some dev

/-- R214's table and R79: the device address an accepted command's transactions go to; none where the
command is refused. -/
def deviceOf : Instr → Lifecycle → Option DevAddr
  | .construct address, .unconstructed => some address
  | .construct _, .ready _ _ => none
  | .status, l => l.device
  | .readId, l => l.device
  | .reset, l => l.device
  | .writeConfig _ _ _, l => l.device
  | .writeCtrlMeas _ _ _, l => l.device
  | .writeCtrlHum _, l => l.device
  | .readStatus, l => l.device

/-- R78's column "returned by": the responses a command may return when it completes. -/
def completesWith : Instr → Response → Bool
  | .construct _, .ok => true
  | .status, .meas _ => true
  | .readId, .id _ => true
  | .reset, .ok => true
  | .writeConfig _ _ _, .ok => true
  | .writeCtrlMeas _ _ _, .ok => true
  | .writeCtrlHum _, .ok => true
  | .readStatus, .status _ _ => true
  | _, _ => false

/-- The state after a command that ended at its failing transaction `k`: that one and those before it were
issued, in order, and nothing else has changed but what the observer saw (R213). -/
def afterFailure (i : Instr) (dev : DevAddr) (k : Nat) (s : State) : State :=
  { s with
    answers := s.answers.drop (k + 1)
    oracleIndex := s.oracleIndex + (k + 1)
    busTrace := s.busTrace ++ s.records dev ((transactionsOf i).take (k + 1))
    responses := s.responses ++ [.busIoError k] }

/-- The state after a command that completed with its one transaction `t` and changed nothing of the
engine (R188). -/
def afterOne (dev : DevAddr) (t : Txn) (reply : Reply) (r : Response) (s : State) : State :=
  { s with
    answers := s.answers.drop 1
    oracleIndex := s.oracleIndex + 1
    busTrace := s.busTrace ++ [{ dev := dev, txn := t, reply := reply }]
    responses := s.responses ++ [r] }

/-- A refused command: no transaction, no state change, response REFUSED (R214). -/
def afterRefusal (s : State) : State := { s with responses := s.responses ++ [.refused] }

/-- A command of the one-transaction kind (R187 to R189): refused in `UNCONSTRUCTED`; in `READY` stuck
where its transaction never completes (the fault, log 3), the exception where it fails, and else completed with this
transaction, this reply and this response, nothing of the engine changed. -/
def IsOneTransaction (i : Instr) (t : Txn) (reply : State → Reply) (response : State → Response) : Prop :=
  ∀ s : State,
    (s.lifecycle = .unconstructed → exec i s = .next (afterRefusal s)) ∧
    ∀ dev cal, s.lifecycle = .ready dev cal →
      (hangs 1 s.answers = true → exec i s = .fault .transactionNeverCompletes) ∧
      (hangs 1 s.answers = false → s.firstFailure 1 = some 0 → exec i s =
        .next (afterOne dev t .failed (.busIoError 0) s)) ∧
      (s.busSucceeds 1 = true → exec i s = .next (afterOne dev t (reply s) (response s) s))

end Sys2Proof.Machine
end

