-- ==== Sys2Proof/Certificates/Slice0/Obligations.lean ====
section
/-! DEFINITION. The statements for the provers, in the order of spec/: encoding, step, CONSTRUCT, STATUS and
its stages, the one-transaction commands, refusal and exception, reset, whole-machine rules. A statement
that rests on a parameter value names it through `params`, whose values are those of R8. -/

open Sys2Proof Sys2Proof.Machine

/-! ### Encoding (30_encoding.md) -/

/-- R72, R73, R75: encoding and decoding are inverse to each other on the words whose ignored bits are 0. -/
def Obligations.DecodeEncodeAgree : Prop :=
  (∀ i : Instr, i.format.canonical (encode i) = true ∧ decode (encode i) = i) ∧
  ∀ w : CmdWord, (decode w).format.canonical w = true → encode (decode w) = w

/-- R73: the table's rows, and every 16-bit word selects exactly one of them, the one of the command the
decoder reads from it. -/
def Obligations.EveryWordSelectsExactlyOneRow : Prop :=
  opcodeTable.map (fun r => (r.mnemonic, r.format, r.matchBits, r.mask)) =
    [("CONSTRUCT", .a, 0x0000, 0xE000), ("STATUS", .n, 0x2000, 0xE000), ("READ_ID", .n, 0x4000, 0xE000),
     ("RESET", .n, 0x6000, 0xE000), ("WRITE_CONFIG", .c, 0x8000, 0xE000),
     ("WRITE_CTRL_MEAS", .m, 0xA000, 0xE000), ("WRITE_CTRL_HUM", .h, 0xC000, 0xE000),
     ("READ_STATUS", .n, 0xE000, 0xE000)] ∧
  ∀ w : CmdWord, ∃! r, r ∈ opcodeTable ∧ w &&& r.mask = r.matchBits ∧
    r.mnemonic = (decode w).mnemonic ∧ r.format = (decode w).format

/-- R75: two words that agree in the bits their format uses decode to the same command and run alike. -/
def Obligations.IgnoredBitsDoNotMatter : Prop :=
  ∀ w w' : CmdWord,
    w &&& (decode w).format.usedBits = w' &&& (decode w).format.usedBits →
    decode w' = decode w ∧
    ∀ (s : State) (rest : List HostInput),
      step { s with inputs := .command w' :: rest } = step { s with inputs := .command w :: rest }

/-- R86's encoding examples, each decoded from the word the spec writes out and, where symbolic operands
are used, assembled from them. -/
def Obligations.SpecExampleWordsDecode : Prop :=
  decode 0x0076 = .construct 0x76 ∧ decode 0x2000 = .status ∧ decode 0x4000 = .readId ∧ decode 0x6000 = .reset ∧
  decode 0x8058 = .writeConfig 5 4 0 ∧ decode 0xA027 = .writeCtrlMeas 1 1 3 ∧ decode 0xC001 = .writeCtrlHum 1 ∧
  decode 0xE000 = .readStatus ∧
  (assemble (.construct 0x76)).map encode = some 0x0076 ∧
  (assemble (.writeConfig (.sym .ms1000) (.sym .by16) 0)).map encode = some 0x8058 ∧
  (assemble (.writeCtrlMeas (.sym .x1) (.sym .x1) (.sym .normal))).map encode = some 0xA027 ∧
  (assemble (.writeCtrlHum (.sym .x1))).map encode = some 0xC001

/-! ### The step (00_scope.md section 3, 70_reset_and_hazards.md section 1) -/

/-- A step runs the command the host's word decodes to, on the state past that input; a word placed by
`withFetchWord` is the next one run; with no input the engine idles. The list of host inputs is the
model's (log 1). -/
def Obligations.StepRunsTheDecodedCommand : Prop :=
  (∀ (s : State) (w : CmdWord) (rest : List HostInput), s.inputs = .command w :: rest →
    step s = exec (decode w) { s with inputs := rest }) ∧
  (∀ (s : State) (i : Instr), step (s.withFetchWord 16 (encode i).toNat) = exec i s) ∧
  (∀ s : State, s.inputs = [] → step s = .next s)

/-- R230: hardware reset leaves `UNCONSTRUCTED`, no working register with a value, and issues no bus
transaction and no response. -/
def Obligations.HardwareResetForgetsTheDevice : Prop :=
  ∀ (s : State) (rest : List HostInput), s.inputs = .hardwareReset :: rest →
    step s = .next { s with inputs := rest, lifecycle := .unconstructed, work := none }

/-- R231: the state right after hardware reset. That the environment's and the observer's lists are empty
is the model's choice (log 1, log 2, log 6) and is not stated here. -/
def Obligations.ResetLeavesNoValue : Prop :=
  State.reset.lifecycle = .unconstructed ∧ State.reset.calValid = false ∧ State.reset.work = none

/-! ### CONSTRUCT (40_init_calibration.md) -/

/-- R112: with the three reads successful, made in R102's order, CONSTRUCT commits coefficients, device
address and lifecycle state in one update, whatever the bytes, and answers OK. -/
def Obligations.ConstructCommitsTheDevice : Prop :=
  ∀ (s : State) (address : DevAddr), s.lifecycle = .unconstructed → s.busSucceeds 3 = true →
    let b24 : Block 24 := takeBlock (s.answerByte 0) 24
    let b1 : Block 1 := takeBlock (s.answerByte 1) 1
    let b8 : Block 8 := takeBlock (s.answerByte 2) 8
    exec (.construct address) s = .next { s with
      lifecycle := .ready address (calUnpack b24 b1 b8)
      answers := s.answers.drop 3
      oracleIndex := s.oracleIndex + 3
      busTrace := s.busTrace ++ [readRecord address 0x88 b24, readRecord address 0xA1 b1, readRecord address 0xE1 b8]
      responses := s.responses ++ [.ok] }

/-- R103: at the first failing read CONSTRUCT ends, no later read is issued, nothing of the engine changes,
and the response names the failing read. -/
def Obligations.ConstructFailureLeavesNoDevice : Prop :=
  ∀ (s : State) (address : DevAddr) (k : Nat), s.lifecycle = .unconstructed → hangs 3 s.answers = false →
    s.firstFailure 3 = some k →
    exec (.construct address) s = .next (afterFailure (.construct address) address k s) ∧
    (afterFailure (.construct address) address k s).lifecycle = .unconstructed ∧
    ((afterFailure (.construct address) address k s).busTrace.drop s.busTrace.length).map BusRecord.txn =
      [Txn.read 0x88 24, .read 0xA1 1, .read 0xE1 8].take (k + 1) ∧
    (∀ j < k, s.answerFails j = false) ∧ s.answerFails k = true

/-- R101: in `READY` CONSTRUCT is refused, with no transaction and no state change. -/
def Obligations.ConstructIsRefusedInReady : Prop :=
  ∀ (s : State) (address dev : DevAddr) (cal : Calibration), s.lifecycle = .ready dev cal →
    exec (.construct address) s = .next (afterRefusal s)

/-- R105, R106, R107, R109, R110, R111: the value of every coefficient from the values of its bytes; byte 7 of
the last block does not matter. That the twelve fields of the first block lie back to back (R104) and the
places of the bytes of H2, H3 and H6 (R108) are the spec's inferences. -/
def Obligations.UnpackedCoefficientValues : Prop :=
  ∀ (b24 : Block 24) (b1 : Block 1) (b8 : Block 8),
    let cal := calUnpack b24 b1 b8
    let p := cal.pCoeffs
    let h := cal.hCoeffs params.h45Signed
    cal.tCoeffs = ⟨(b24 1).toNat * 256 + (b24 0).toNat, signedField (b24 2) (b24 3), signedField (b24 4) (b24 5)⟩ ∧
    p.p1 = (b24 7).toNat * 256 + (b24 6).toNat ∧ p.p2 = signedField (b24 8) (b24 9) ∧
    p.p3 = signedField (b24 10) (b24 11) ∧ p.p4 = signedField (b24 12) (b24 13) ∧
    p.p5 = signedField (b24 14) (b24 15) ∧ p.p6 = signedField (b24 16) (b24 17) ∧
    p.p7 = signedField (b24 18) (b24 19) ∧ p.p8 = signedField (b24 20) (b24 21) ∧
    p.p9 = signedField (b24 22) (b24 23) ∧
    h.h1 = (b1 0).toNat ∧ h.h2 = signedField (b8 0) (b8 1) ∧ h.h3 = (b8 2).toNat ∧
    h.h4 = (b8 3).toNat * 16 + (b8 4).toNat % 16 ∧ h.h5 = (b8 5).toNat * 16 + (b8 4).toNat / 16 ∧
    h.h6 = (if (b8 6).toNat < 128 then ((b8 6).toNat : Int) else (b8 6).toNat - 256) ∧
    ∀ b8' : Block 8, (∀ i : Fin 8, i ≠ 7 → b8' i = b8 i) → calUnpack b24 b1 b8' = cal

/-- R114 b: every coefficient file is unpacked from exactly one setting of the 32 bytes that matter. -/
def Obligations.UnpackIsABijection : Prop :=
  ∀ (cal : Calibration) (e8 : Byte), ∃! b : Block 24 × Block 1 × Block 8,
    b.2.2 7 = e8 ∧ calUnpack b.1 b.2.1 b.2.2 = cal

/-! ### STATUS and its stages (41 to 45) -/

/-- R180's outcome with the burst read successful: one fresh read, the stages in R183's order with the
formulas of R8's parameters, the Measurement delivered, no working register left with a value, and nothing
else changed. -/
def Obligations.StatusDeliversTheMeasurement : Prop :=
  ∀ (s : State) (dev : DevAddr) (cal : Calibration), s.lifecycle = .ready dev cal → s.busSucceeds 1 = true →
    let b : Block 8 := takeBlock (s.answerByte 0) 8
    let raw := rawDecode 2 b
    let tFine := tempFine cal.tCoeffs raw.tRaw.toNat
    let hQ10 := compH .exact (cal.hCoeffs false) raw.hRaw.toNat tFine
    exec .status s = .next { s with
      work := none
      answers := s.answers.drop 1
      oracleIndex := s.oracleIndex + 1
      busTrace := s.busTrace ++ [readRecord dev 0xF7 b]
      responses := s.responses ++ [.meas
        { temperature := fdiv .tiesToEven (i2f .tiesToEven (tempCenti tFine)) 0x4059000000000000
          pressure := match compP .exact .trunc cal.pCoeffs raw.pRaw.toNat tFine with
            | none => .invalid
            | some q => .value (fdiv .tiesToEven (fdiv .tiesToEven (i2f .tiesToEven q) 0x4070000000000000)
                0x4059000000000000)
          humidity := fdiv .tiesToEven (i2f .tiesToEven hQ10) 0x4090000000000000 }] }

/-- R181, R182: STATUS is refused in `UNCONSTRUCTED`; where the burst read fails it ends at once with `txn`
0, no stage runs and nothing of the engine changes. -/
def Obligations.StatusRefusalAndFailure : Prop :=
  ∀ s : State,
    (s.lifecycle = .unconstructed → exec .status s = .next (afterRefusal s)) ∧
    ∀ dev cal, s.lifecycle = .ready dev cal → hangs 1 s.answers = false → s.firstFailure 1 = some 0 →
      exec .status s = .next (afterOne dev (.read 0xF7 8) .failed (.busIoError 0) s)

/-- R121, R122, R123: the raw values bit by bit, with the overlap in bits 5:4 that `XLSB_SHIFT` = 2 gives
and the low two bits of each XLSB byte dropped. -/
def Obligations.RawValuesBitByBit : Prop :=
  ∀ (b : Block 8),
    let raw := rawDecode params.xlsbShift b
    (∀ i < 4, raw.pRaw.getLsbD i = (b 2).getLsbD (i + 2) ∧ raw.tRaw.getLsbD i = (b 5).getLsbD (i + 2)) ∧
    (∀ i < 2, raw.pRaw.getLsbD (i + 4) = ((b 1).getLsbD i || (b 2).getLsbD (i + 6)) ∧
      raw.tRaw.getLsbD (i + 4) = ((b 4).getLsbD i || (b 5).getLsbD (i + 6))) ∧
    (∀ i < 6, raw.pRaw.getLsbD (i + 6) = (b 1).getLsbD (i + 2) ∧ raw.tRaw.getLsbD (i + 6) = (b 4).getLsbD (i + 2)) ∧
    (∀ i < 8, raw.pRaw.getLsbD (i + 12) = (b 0).getLsbD i ∧ raw.tRaw.getLsbD (i + 12) = (b 3).getLsbD i) ∧
    raw.hRaw.toNat = (b 6).toNat * 256 + (b 7).toNat

/-- R135: the ranges of `t_fine` and `T_centi` over every raw value and every coefficient file, both ends of
`t_fine` attained, and the low three bits of the raw value never matter (R136 d). -/
def Obligations.TemperatureRanges : Prop :=
  (∀ (cal : Calibration) (tRaw : BitVec 20),
    let t := params.compT params.arith cal.tCoeffs tRaw.toNat
    t.tFine ≥ -4194224 ∧ t.tFine ≤ 4194144 ∧ t.tCenti ≥ -81918 ∧ t.tCenti ≤ 81917 ∧
    ∀ tRaw' : BitVec 20, tRaw' >>> 3 = tRaw >>> 3 → params.compT params.arith cal.tCoeffs tRaw'.toNat = t) ∧
  (∃ (cal : Calibration) (tRaw : BitVec 20), (params.compT params.arith cal.tCoeffs tRaw.toNat).tFine = -4194224) ∧
  (∃ (cal : Calibration) (tRaw : BitVec 20), (params.compT params.arith cal.tCoeffs tRaw.toNat).tFine = 4194144)

/-- R144: the sentinel is answered exactly when `0 ≤ d2 < 2^33`, always where P1 is 0, and otherwise the
denominator of the division is not zero. -/
def Obligations.PressureSentinelExactly : Prop :=
  ∀ (cal : Calibration) (pRaw : BitVec 20) (tFine : Int),
    let c := cal.pCoeffs
    let d2 := presD2 c (presV tFine)
    (params.compP params.arith params.divMode c pRaw.toNat tFine = none ↔ 0 ≤ d2 ∧ d2 < 2 ^ 33) ∧
    (cal.P1 = 0 → params.compP params.arith params.divMode c pRaw.toNat tFine = none) ∧
    ∀ q, params.compP params.arith params.divMode c pRaw.toNat tFine = some q →
      presVar1 c (presV tFine) ≠ 0 ∧
      ∃ p1, p1 = Int.tdiv ((2147483648 * (1048576 - (pRaw.toNat : Int)) - presVar2 c (presV tFine)) * 3125)
          (presVar1 c (presV tFine)) ∧
        q = (p1 + presW1 c p1 + presW2 c p1) / 256 + 16 * c.p7

/-- R162, R163: the humidity result is the clamped value divided by 4096, rounded down: never below 0,
never above 102400, 0 for every negative value, 102400 for every value from the upper bound on. -/
def Obligations.HumidityClampAndShift : Prop :=
  ∀ (c : Config.HCoeffs) (hRaw tFine : Int),
    let w := humW c hRaw (humX tFine)
    let q := params.compH params.arith c hRaw tFine
    q = max 0 (min w 419430400) / 4096 ∧ 0 ≤ q ∧ q ≤ 102400 ∧ (w < 0 → q = 0) ∧ (419430400 ≤ w → q = 102400) ∧
    (0 ≤ w → w ≤ 419430400 → q * 4096 ≤ w ∧ w < (q + 1) * 4096)

/-- R15, R171: integer-to-float conversion is correctly rounded, exact up to `2^53`, and +0.0 for 0. -/
def Obligations.IntegerToFloatIsNearest : Prop :=
  i2f params.f64Round 0 = 0 ∧
  ∀ z : Int, |z| < 2 ^ 1023 →
    IsNearest (i2f params.f64Round z) z ∧
    (|z| ≤ 2 ^ 53 → f64Value (i2f params.f64Round z) = z ∧ (z ≠ 0 → f64Normal (i2f params.f64Round z) = true))

/-- R172: the temperature output is the binary64 nearest to `T_centi / 100`. -/
def Obligations.TemperatureOutputIsNearest : Prop :=
  ∀ tCenti : Int, -81918 ≤ tCenti → tCenti ≤ 81917 →
    IsNearest (convertTemperature params.f64Round tCenti) (tCenti / 100)

/-- R173: the pressure output is the binary64 nearest to `i2f(P_q8) / 25600`: the division by 256 is exact.
For `|P_q8| ≤ 2^53` that is the nearest to `P_q8 / 25600` itself. -/
def Obligations.PressureOutputIsNearest : Prop :=
  ∀ q : Int, |q| < 2 ^ 99 →
    IsNearest (convertPressure params.f64Round q) (f64Value (i2f params.f64Round q) / 25600) ∧
    (|q| ≤ 2 ^ 53 → IsNearest (convertPressure params.f64Round q) (q / 25600))

/-- R175: the humidity output is exactly `H_q10 / 1024`. -/
def Obligations.HumidityOutputIsExact : Prop :=
  ∀ q : Int, 0 ≤ q → q ≤ 102400 →
    f64Finite (convertHumidity params.f64Round q) = true ∧ f64Value (convertHumidity params.f64Round q) = q / 1024

/-- R171: no NaN, no infinity, no subnormal and no -0.0 in any Measurement, for every coefficient file and
every burst: an output is the pattern of +0.0 or a normal number. -/
def Obligations.NoSpecialFloatsInAMeasurement : Prop :=
  ∀ (cal : Calibration) (b : Block 8),
    let m := convert params.f64Round (runStages params cal b)
    (m.temperature = 0 ∨ f64Normal m.temperature = true) ∧ (m.humidity = 0 ∨ f64Normal m.humidity = true) ∧
    ∀ x, m.pressure = .value x → x = 0 ∨ f64Normal x = true

/-- R152's bound: `P_q8` fits 99 signed bits, for every coefficient file and every burst. -/
def Obligations.PressureFitsNinetyNineBits : Prop :=
  ∀ (cal : Calibration) (b : Block 8) (q : Int), (runStages params cal b).pQ8 = some q → |q| < 2 ^ 98

/-- R135: a 64-bit two's-complement datapath computes the temperature stage exactly, on every input. -/
def Obligations.SixtyFourBitTemperatureIsExact : Prop :=
  ∀ (cal : Calibration) (tRaw : BitVec 20),
    (compT64 cal.tCoeffs tRaw.toNat).1.toInt = (params.compT params.arith cal.tCoeffs tRaw.toNat).tFine ∧
    (compT64 cal.tCoeffs tRaw.toNat).2.toInt = (params.compT params.arith cal.tCoeffs tRaw.toNat).tCenti

/-- R152: inside the 64-bit envelope, whose values log 30 names, a 64-bit two's-complement datapath whose division rounds as `DIV_MODE`
computes the pressure stage exactly, sentinel included, for either division mode. -/
def Obligations.SixtyFourBitPressureIsExactInEnvelope : Prop :=
  ∀ (mode : Config.DivMode) (cal : Calibration) (pRaw : BitVec 20) (tFine : Int),
    presFits64 mode cal.pCoeffs pRaw.toNat tFine = true →
    (compP64 mode cal.pCoeffs pRaw.toNat tFine).map BitVec.toInt = compP .exact mode cal.pCoeffs pRaw.toNat tFine

/-- R166: inside its 64-bit envelope, whose values log 30 names, a 64-bit two's-complement datapath computes the humidity stage
exactly, for either signedness of H4 and H5. -/
def Obligations.SixtyFourBitHumidityIsExactInEnvelope : Prop :=
  ∀ (signed : Bool) (cal : Calibration) (hRaw : BitVec 16) (tFine : Int),
    humFits64 (cal.hCoeffs signed) hRaw.toNat tFine = true →
    (compH64 (cal.hCoeffs signed) hRaw.toNat tFine).toInt = compH .exact (cal.hCoeffs signed) hRaw.toNat tFine

/-- R22, R183, R184 b: the temperature stage reads T1 to T3 and bytes 3 to 5 only; given the same of those,
pressure depends on P1 to P9 and bytes 0 to 2 only, and humidity on H1 to H6 and bytes 6 and 7 only. -/
def Obligations.EachStageReadsItsOwnInputs : Prop :=
  ∀ (c1 c2 : Calibration) (b1 b2 : Block 8),
    let w1 := runStages params c1 b1
    let w2 := runStages params c2 b2
    c1.T1 = c2.T1 → c1.T2 = c2.T2 → c1.T3 = c2.T3 → b1 3 = b2 3 → b1 4 = b2 4 → b1 5 = b2 5 →
    (convert params.f64Round w1).temperature = (convert params.f64Round w2).temperature ∧ w1.tFine = w2.tFine ∧
    (c1.pCoeffs = c2.pCoeffs → b1 0 = b2 0 → b1 1 = b2 1 → b1 2 = b2 2 →
      (convert params.f64Round w1).pressure = (convert params.f64Round w2).pressure) ∧
    (c1.hCoeffs params.h45Signed = c2.hCoeffs params.h45Signed → b1 6 = b2 6 → b1 7 = b2 7 →
      (convert params.f64Round w1).humidity = (convert params.f64Round w2).humidity)

/-- R185: two states in `READY` with the same coefficient file whose burst reads succeed with the same eight
bytes give the same response, whatever else differs between them. -/
def Obligations.StatusSeesOnlyCoefficientsAndBurst : Prop :=
  ∀ (s1 s2 : State) (dev1 dev2 : DevAddr) (cal : Calibration),
    s1.lifecycle = .ready dev1 cal → s2.lifecycle = .ready dev2 cal →
    s1.busSucceeds 1 = true → s2.busSucceeds 1 = true → (∀ i < 8, s1.answerByte 0 i = s2.answerByte 0 i) →
    ∃ (t1 t2 : State) (m : Measurement), exec .status s1 = .next t1 ∧ exec .status s2 = .next t2 ∧
      t1.responses = s1.responses ++ [.meas m] ∧ t2.responses = s2.responses ++ [.meas m]

/-! ### The one-transaction commands (46_config_misc.md) -/

/-- R190: READ_ID, `OP` = 2, reads one byte of register 0xD0 and returns it as it is. That the read is one
byte long is the spec's own inference; that a hanging read ends in the model's fault is log 3's form. -/
def Obligations.ReadIdReturnsTheByte : Prop :=
  decode 0x4000 = .readId ∧
  IsOneTransaction .readId (.read 0xD0 1) (fun s => .data [s.answerByte 0 0]) (fun s => .id (s.answerByte 0 0))

/-- R204: READ_STATUS, `OP` = 7, reads one byte of register 0xF3 and returns its bits 3 and 0.
That the read is one byte long is the spec's own inference (R50); that a hanging read ends in the model's
fault is log 3's form of R240. -/
def Obligations.ReadStatusReturnsTwoBits : Prop :=
  decode 0xE000 = .readStatus ∧
  IsOneTransaction .readStatus (.read 0xF3 1) (fun s => .data [s.answerByte 0 0])
    (fun s => .status ((s.answerByte 0 0).getLsbD 3) ((s.answerByte 0 0).getLsbD 0))

/-- R192, R193: RESET, `OP` = 3, writes 0xB6 to register 0xE0 and nothing more; the engine keeps its state.
That a hanging write ends in the model's fault is log 3's form of R240. -/
def Obligations.ResetWritesTheMagicByte : Prop :=
  decode 0x6000 = .reset ∧
  IsOneTransaction .reset (.write 0xE0 0xB6) (fun _ => .done) (fun _ => .ok)

/-- R195: WRITE_CONFIG, encoded with `OP` = 4, writes to register 0xF5 the byte whose bits 7:5 are `standby`, 4:2 `filter`, 1 zero
and 0 `spi3w`. That a hanging write ends in the model's fault is log 3's form of R240. -/
def Obligations.WriteConfigWritesItsPayload : Prop :=
  ∀ (standby filter : BitVec 3) (spi3w : BitVec 1),
    decode (0x8000 ||| standby.setWidth 16 <<< 4 ||| filter.setWidth 16 <<< 1 ||| spi3w.setWidth 16) =
      .writeConfig standby filter spi3w ∧
    IsOneTransaction (.writeConfig standby filter spi3w) (.write 0xF5 (standby ++ filter ++ 0#1 ++ spi3w))
      (fun _ => .done) (fun _ => .ok)

/-- R198, R199: WRITE_CTRL_MEAS, encoded with `OP` = 5, writes to register 0xF4 the byte whose bit 7 is bit 0
of `temp_os`, bits 6:5 zero, bits 4:2 `press_os` and bits 1:0 `mode`; with the alternative `T_OS_SHIFT` = 5
the three fields would fill the byte. That a hanging write ends in the model's fault is log 3's form of
R240. -/
def Obligations.WriteCtrlMeasWritesItsPayload : Prop :=
  ∀ (tempOs pressOs : BitVec 3) (mode : BitVec 2),
    decode (0xA000 ||| tempOs.setWidth 16 <<< 5 ||| pressOs.setWidth 16 <<< 2 ||| mode.setWidth 16) =
      .writeCtrlMeas tempOs pressOs mode ∧
    ctrlMeasPayload 5 tempOs pressOs mode = tempOs ++ pressOs ++ mode ∧
    IsOneTransaction (.writeCtrlMeas tempOs pressOs mode)
      (.write 0xF4 (tempOs.extractLsb' 0 1 ++ 0#2 ++ pressOs ++ mode)) (fun _ => .done) (fun _ => .ok)

/-- R202: WRITE_CTRL_HUM, encoded with `OP` = 6, writes to register 0xF2 the byte whose bits 2:0 are `os` and bits 7:3 zero.
That a hanging write ends in the model's fault is log 3's form of R240. -/
def Obligations.WriteCtrlHumWritesItsPayload : Prop :=
  ∀ os : BitVec 3,
    decode (0xC000 ||| os.setWidth 16) = .writeCtrlHum os ∧
    IsOneTransaction (.writeCtrlHum os) (.write 0xF2 (0#5 ++ os)) (fun _ => .done) (fun _ => .ok)

/-- R188: each of the six commands, where it is accepted, issues exactly one bus transaction, and none
changes any engine state, whether the transaction succeeds or fails. -/
def Obligations.OneTransactionCommandsKeepTheEngine : Prop :=
  ∀ (i : Instr) (s t : State), (∀ address, i ≠ .construct address) → i ≠ .status → exec i s = .next t →
    t.engine = s.engine ∧ t.inputs = s.inputs ∧
    (s.lifecycle = .unconstructed → t.busTrace = s.busTrace) ∧
    ∀ dev cal, s.lifecycle = .ready dev cal → ∃ r, t.busTrace = s.busTrace ++ [r] ∧ r.dev = dev

/-! ### Refusal and exception (60_exceptions.md) -/

/-- R214: a command is refused exactly when its lifecycle precondition does not hold; it then issues no
transaction and changes no state. -/
def Obligations.RefusedExactlyWhenNotAccepted : Prop :=
  ∀ (i : Instr) (s : State),
    (deviceOf i s.lifecycle = none → exec i s = .next (afterRefusal s)) ∧
    ∀ t, exec i s = .next t → t.responses = s.responses ++ [.refused] → deviceOf i s.lifecycle = none

/-- R213: an accepted command ends at its first failing transaction; no later one is issued, no engine state
changes, and the response carries the index and no partial result. -/
def Obligations.BusErrorLeavesNoTrace : Prop :=
  ∀ (i : Instr) (s : State) (dev : DevAddr) (k : Nat), deviceOf i s.lifecycle = some dev →
    hangs (transactionsOf i).length s.answers = false → s.firstFailure (transactionsOf i).length = some k →
    exec i s = .next (afterFailure i dev k s) ∧ (afterFailure i dev k s).engine = s.engine ∧
    k < (transactionsOf i).length

/-- R215: after a BusIOError the engine is in the lifecycle state it was in and accepts the same commands,
with no error state: given the same answers, the next command ends as it would have without the failure. -/
def Obligations.NoStickyError : Prop :=
  ∀ (i c : Instr) (s t u : State) (k : Nat), exec i s = .next t → t.responses = s.responses ++ [.busIoError k] →
    (t.lifecycle = s.lifecycle ∧ t.work = s.work ∧ deviceOf c t.lifecycle = deviceOf c s.lifecycle) ∧
    (exec c { s with answers := t.answers, oracleIndex := t.oracleIndex } = .next u →
      ∃ v, exec c t = .next v ∧ v.engine = u.engine ∧
        v.responses.drop t.responses.length = u.responses.drop s.responses.length)

/-- R240: an accepted command with a transaction that never completes has no next state (the model's fault,
log 3), and nothing else stops a command: where the transport keeps its contract every command ends in a next state. -/
def Obligations.OnlyAHangStopsACommand : Prop :=
  ∀ (i : Instr) (s : State),
    (∀ dev, deviceOf i s.lifecycle = some dev → hangs (transactionsOf i).length s.answers = true →
      exec i s = .fault .transactionNeverCompletes) ∧
    (NeverHangs s → ∃ t, exec i s = .next t) ∧
    ∀ r, exec i s ≠ .refused r

/-- R224: the outcome of a command as a function: refusal first, then the transactions in order, then the
completed response (the stuck branch is log 3's form); a completed command keeps the engine's state but for CONSTRUCT, and its one response
is of the kind R78 names. -/
def Obligations.OutcomeOfACommand : Prop :=
  ∀ (i : Instr) (s : State),
    (deviceOf i s.lifecycle = none ∧ exec i s = .next (afterRefusal s)) ∨
    ∃ dev, deviceOf i s.lifecycle = some dev ∧
      ((hangs (transactionsOf i).length s.answers = true ∧ exec i s = .fault .transactionNeverCompletes) ∨
       (∃ k, hangs (transactionsOf i).length s.answers = false ∧
          s.firstFailure (transactionsOf i).length = some k ∧ exec i s = .next (afterFailure i dev k s)) ∨
       (s.busSucceeds (transactionsOf i).length = true ∧ ∃ t r, exec i s = .next t ∧
          t.busTrace = s.busTrace ++ s.records dev (transactionsOf i) ∧
          t.answers = s.answers.drop (transactionsOf i).length ∧
          t.oracleIndex = s.oracleIndex + (transactionsOf i).length ∧ t.inputs = s.inputs ∧
          t.responses = s.responses ++ [r] ∧ completesWith i r = true ∧
          t.lifecycle = (match i with
            | .construct address => .ready address (calUnpack (takeBlock (s.answerByte 0) 24)
                (takeBlock (s.answerByte 1) 1) (takeBlock (s.answerByte 2) 8))
            | _ => s.lifecycle)))

/-- R7, R78: every command that reaches an outcome delivers exactly one response, of a kind R78 names for
it. -/
def Obligations.EveryCommandAnswersOnce : Prop :=
  ∀ (i : Instr) (s t : State), exec i s = .next t →
    ∃ r, t.responses = s.responses ++ [r] ∧
      (completesWith i r = true ∨ r = .refused ∨ ∃ k, r = .busIoError k ∧ k < (transactionsOf i).length)

/-- R78: the kind codes, and the sentinel as bits: flag 1 and an all-zero word, told from `PValue(+0.0)` by
the flag alone (R174). -/
def Obligations.ResponseBits : Prop :=
  Response.ok.code = 0 ∧ (∀ m, (Response.meas m).code = 1) ∧ (∀ b, (Response.id b).code = 2) ∧
  (∀ a b, (Response.status a b).code = 3) ∧ (∀ k, (Response.busIoError k).code = 4) ∧ Response.refused.code = 5 ∧
  (∀ x, (Pressure.value x).flag = false ∧ (Pressure.value x).word = x) ∧
  Pressure.invalid.flag = true ∧ Pressure.invalid.word = 0 ∧ (Pressure.value 0).word = Pressure.invalid.word ∧
  Pressure.value 0 ≠ Pressure.invalid

/-! ### Notation (00_scope.md section 5) -/

/-- R11: the left shift loses nothing and the right shift is the floor of the exact quotient. Of R14: `trunc` is
`sign(n) * sign(d) * floor(|n| / |d|)`, `floor` rounds toward minus infinity, and the two agree whenever the
signs agree, `n` is 0, or `d` divides `n`. -/
def Obligations.ShiftAndDivisionRounding : Prop :=
  (∀ (v : Int) (n : Nat), shr v n = ⌊(v : ℚ) / 2 ^ n⌋ ∧ shl v n = v * 2 ^ n) ∧
  ∀ n d : Int, d ≠ 0 →
    idiv .trunc n d = n.sign * d.sign * ((n.natAbs / d.natAbs : Nat) : Int) ∧
    idiv .floor n d = ⌊(n : ℚ) / d⌋ ∧
    (n.sign = d.sign ∨ n = 0 ∨ d ∣ n → idiv .trunc n d = idiv .floor n d)

/-- R8: the parameter values taken, and that they make sense. -/
def Obligations.ParameterValuesTaken : Prop :=
  params.addrW = 7 ∧ params.calOrder = [.block88, .blockA1, .blockE1] ∧ params.xlsbShift = 2 ∧
  params.tOsShift = 7 ∧ params.h45Signed = false ∧ params.arith = .exact ∧ params.divMode = .trunc ∧
  params.f64Round = .tiesToEven ∧ params.stMeasuringBit = 3 ∧ params.stImUpdateBit = 0 ∧
  params.reconstruct = .refuse ∧ params.wellFormed = true

/-! ### Whole-machine rules -/

/-- R26, R100, R103: a Device is never observable with unread calibration: in every state that a step
reaches from one where that holds, the coefficient file of a `READY` engine is what three successive
calibration reads at the stored address delivered. -/
def Obligations.CalibrationIsAlwaysRead : Prop :=
  ∀ s t : State, CalibrationWasRead s → step s = .next t → CalibrationWasRead t

/-- R50, R51, R54: no step ever issues a transaction outside the register map. -/
def Obligations.BusStaysInTheRegisterMap : Prop :=
  ∀ s t : State, BusIsLegal s → step s = .next t → BusIsLegal t

/-- R24, R25: no working register holds a value between commands. -/
def Obligations.WorkingRegistersStayEmpty : Prop :=
  ∀ s t : State, WorkIsEmpty s → step s = .next t → WorkIsEmpty t

/-- The three invariants hold right after reset. -/
def Obligations.InvariantsHoldAtReset : Prop :=
  CalibrationWasRead State.reset ∧ BusIsLegal State.reset ∧ WorkIsEmpty State.reset

/-- R22, R26: the only way into `READY` is a CONSTRUCT whose three reads succeed, the only way out hardware
reset; while `READY`, the device address and the 18 coefficients never change. -/
def Obligations.OnlyConstructAndResetChangeTheDevice : Prop :=
  ∀ s t : State, step s = .next t →
    (∀ dev cal, s.lifecycle = .ready dev cal →
      t.lifecycle = .ready dev cal ∨ (s.inputs.head? = some .hardwareReset ∧ t.lifecycle = .unconstructed)) ∧
    (s.lifecycle = .unconstructed → t.lifecycle = .unconstructed ∨
      ∃ w address, s.inputs.head? = some (.command w) ∧ decode w = .construct address ∧ s.busSucceeds 3 = true ∧
        t.lifecycle.device = some address)

/-- R6, R58: a command issues between zero and three transactions, in its own order and each after the one
before, every one but the last successful, and takes one answer of the oracle for each. -/
def Obligations.AtMostThreeTransactionsInOrder : Prop :=
  ∀ (i : Instr) (s t : State), exec i s = .next t →
    ∃ k ≤ 3, t.answers = s.answers.drop k ∧ t.oracleIndex = s.oracleIndex + k ∧
      t.busTrace.take s.busTrace.length = s.busTrace ∧
      (t.busTrace.drop s.busTrace.length).map BusRecord.txn = (transactionsOf i).take k ∧
      (t.busTrace.drop s.busTrace.length).length = k ∧
      (∀ r ∈ (t.busTrace.drop s.busTrace.length).dropLast, r.reply ≠ .failed) ∧
      (t.responses = s.responses ++ [.refused] → k = 0)
end

