-- ==== Sys2Proof/Laws/Arith.lean ====
section
/-! SUPPORT. The integer notation of the rules, in the form arithmetic reasoning uses. -/

namespace Sys2Proof.Machine

theorem shl_eq (v : Int) (n : Nat) : shl v n = v * 2 ^ n := rfl

theorem shr_eq (v : Int) (n : Nat) : shr v n = v / 2 ^ n := rfl

/-- `shr` is the floor of the quotient (R11). -/
theorem shr_floor (v : Int) (n : Nat) : shr v n * 2 ^ n ≤ v ∧ v < (shr v n + 1) * 2 ^ n := by
  have h : (0 : Int) < 2 ^ n := by positivity
  exact ⟨Int.ediv_mul_le v h.ne', Int.lt_ediv_add_one_mul_self v h⟩

/-- `shr` is monotone. -/
theorem shr_mono {a b : Int} (h : a ≤ b) (n : Nat) : shr a n ≤ shr b n :=
  Int.ediv_le_ediv (by positivity) h

/-- `sext_16` is the two's-complement reading. -/
theorem sext16_eq_toInt (w : BitVec 16) : sext16 w = w.toInt := by
  unfold sext16
  rw [BitVec.toInt_eq_toNat_cond]
  split <;> split <;> omega

/-- `sext_8` is the two's-complement reading. -/
theorem sext8_eq_toInt (b : Byte) : sext8 b = b.toInt := by
  unfold sext8
  rw [BitVec.toInt_eq_toNat_cond]
  split <;> split <;> omega

theorem sext16_range (w : BitVec 16) : -32768 ≤ sext16 w ∧ sext16 w ≤ 32767 := by
  have := w.isLt
  unfold sext16
  split <;> omega

theorem sext8_range (b : Byte) : -128 ≤ sext8 b ∧ sext8 b ≤ 127 := by
  have := b.isLt
  unfold sext8
  split <;> omega

/-- The two readings of a 16-bit field are the two bytes', the first-read byte least significant (R13). -/
theorem le16_toNat (lo hi : Byte) : (le16 lo hi).toNat = hi.toNat * 256 + lo.toNat := by
  have h1 := hi.isLt
  have h2 := lo.isLt
  unfold le16
  rw [BitVec.toNat_or, BitVec.toNat_shiftLeft, BitVec.toNat_setWidth, BitVec.toNat_setWidth,
    Nat.mod_eq_of_lt (show hi.toNat < 2 ^ 16 by omega), Nat.mod_eq_of_lt (show lo.toNat < 2 ^ 16 by omega),
    Nat.shiftLeft_eq, Nat.mod_eq_of_lt (show hi.toNat * 2 ^ 8 < 2 ^ 16 by omega), ← Nat.shiftLeft_eq,
    ← Nat.shiftLeft_add_eq_or_of_lt h2, Nat.shiftLeft_eq]

end Sys2Proof.Machine
end

