-- ==== Sys2Proof/Laws/Float64.lean ====
section
/-! SUPPORT. Correct rounding of the output converter's binary64 operations: the patterns of one sign are
ordered as their values, a rounded ratio lies within one step of the exact one, so no other finite
pattern is nearer. -/

namespace Sys2Proof.Machine

/-- The value of a magnitude pattern: exponent field `m / 2^52`, fraction `m % 2^52` (R170). -/
def magValue (m : Nat) : ℚ :=
  ((if m / 2 ^ 52 = 0 then m % 2 ^ 52 else m % 2 ^ 52 + 2 ^ 52 : Nat) : ℚ) * 2 ^ ((max (m / 2 ^ 52) 1 : Nat) - 1075 : ℤ)

/-- A significand `q` at exponent field `k + 1`, a carry into the next binade included. -/
theorem magValue_binade (k q : Nat) (hlow : k = 0 ∨ 2 ^ 52 ≤ q) (hq : q ≤ 2 ^ 53) :
    magValue (k * 2 ^ 52 + q) = q * 2 ^ ((k + 1 : ℤ) - 1075) := by
  have h52 : (2 : ℕ) ^ 52 = 4503599627370496 := by norm_num
  have h53 : (2 : ℕ) ^ 53 = 9007199254740992 := by norm_num
  rw [h52] at hlow ⊢
  rw [h53] at hq
  unfold magValue
  rw [h52]
  rcases Nat.lt_or_ge q 4503599627370496 with h | h
  · have hk : k = 0 := by omega
    subst hk
    have h1 : (0 * 4503599627370496 + q) / 4503599627370496 = 0 := by omega
    have h2 : (0 * 4503599627370496 + q) % 4503599627370496 = q := by omega
    rw [h1, h2]
    norm_num
  · rcases Nat.lt_or_ge q 9007199254740992 with h' | h'
    · have h1 : (k * 4503599627370496 + q) / 4503599627370496 = k + 1 := by omega
      have h2 : (k * 4503599627370496 + q) % 4503599627370496 + 4503599627370496 = q := by omega
      rw [h1, h2]
      simp
    · have hq' : q = 9007199254740992 := by omega
      subst hq'
      have h1 : (k * 4503599627370496 + 9007199254740992) / 4503599627370496 = k + 2 := by omega
      have h2 : (k * 4503599627370496 + 9007199254740992) % 4503599627370496 = 0 := by omega
      rw [h1, h2]
      have h3 : ((max (k + 2) 1 : Nat) : ℤ) - 1075 = ((k : ℤ) + 1 - 1075) + 1 := by
        have : max (k + 2) 1 = k + 2 := by omega
        rw [this]; push_cast; ring
      rw [h3, zpow_add₀ (by norm_num : (2 : ℚ) ≠ 0)]
      norm_num
      ring

/-- One step of the pattern is one unit in the last place of its binade, so the value grows with it. -/
theorem magValue_lt_succ (m : Nat) : magValue m < magValue (m + 1) := by
  have h52 : (2 : ℕ) ^ 52 = 4503599627370496 := by norm_num
  have hpos (k : ℕ) : (0 : ℚ) < 2 ^ ((k + 1 : ℤ) - 1075) := by positivity
  rcases Nat.lt_or_ge m 4503599627370496 with h | h
  · have e1 := magValue_binade 0 m (.inl rfl) (by norm_num; omega)
    have e2 := magValue_binade 0 (m + 1) (.inl rfl) (by norm_num; omega)
    simp only [Nat.zero_mul, Nat.zero_add] at e1 e2
    rw [e1, e2]
    exact mul_lt_mul_of_pos_right (by exact_mod_cast Nat.lt_succ_self m) (hpos 0)
  · obtain ⟨k, q, hm, hq1, hq2⟩ : ∃ k q, m = k * 2 ^ 52 + q ∧ 2 ^ 52 ≤ q ∧ q < 2 ^ 53 :=
      ⟨m / 2 ^ 52 - 1, m % 2 ^ 52 + 2 ^ 52, by omega, by omega, by omega⟩
    have e1 := magValue_binade k q (.inr hq1) (by omega)
    have e2 := magValue_binade k (q + 1) (.inr (by omega)) (by omega)
    rw [hm, e1, Nat.add_assoc, e2]
    have := hpos k
    push_cast
    linarith

theorem magValue_strictMono : StrictMono magValue := strictMono_nat_of_lt_succ magValue_lt_succ

theorem magValue_nonneg (m : Nat) : 0 ≤ magValue m := by
  unfold magValue
  positivity

/-! ### Patterns and magnitudes -/

/-- The magnitude bits of a pattern. -/
def magBits (x : F64) : Nat := x.toNat % 2 ^ 63

theorem f64Exp_eq (x : F64) : f64Exp x = magBits x / 2 ^ 52 := by
  have := x.isLt
  unfold f64Exp magBits
  omega

theorem f64Frac_eq (x : F64) : f64Frac x = magBits x % 2 ^ 52 := by
  unfold f64Frac magBits
  omega

/-- The value of a pattern is that of its magnitude, with its sign. -/
theorem f64Value_eq (x : F64) : f64Value x = (if f64Neg x then -1 else 1) * magValue (magBits x) := by
  have key : ((f64Num x : ℚ) / f64Den x) = (f64Mant x : ℚ) * 2 ^ ((f64Scale x : ℤ) - 1075) := by
    unfold f64Num f64Den
    rcases Nat.le_total (f64Scale x) 1075 with h | h
    · have e : (f64Scale x : ℤ) - 1075 = -((1075 - f64Scale x : ℕ) : ℤ) := by omega
      rw [e, zpow_neg, zpow_natCast, Nat.sub_eq_zero_of_le h]
      push_cast
      ring
    · have e : (f64Scale x : ℤ) - 1075 = ((f64Scale x - 1075 : ℕ) : ℤ) := by omega
      rw [e, zpow_natCast, Nat.sub_eq_zero_of_le h]
      push_cast
      ring
  unfold f64Value
  rw [key]
  unfold magValue f64Mant f64Scale
  rw [f64Exp_eq, f64Frac_eq]

theorem f64OfBits_toNat (neg : Bool) (m : Nat) (h : m < 2 ^ 63) :
    (f64OfBits neg m).toNat = (if neg then 2 ^ 63 else 0) + m := by
  unfold f64OfBits
  rw [BitVec.toNat_ofNat, Nat.mod_eq_of_lt]
  split <;> omega

theorem f64OfBits_neg (neg : Bool) (m : Nat) (h : m < 2 ^ 63) : f64Neg (f64OfBits neg m) = neg := by
  unfold f64Neg
  rw [BitVec.msb_eq_decide, f64OfBits_toNat neg m h]
  cases neg <;> simp
  omega

theorem magBits_f64OfBits (neg : Bool) (m : Nat) (h : m < 2 ^ 63) : magBits (f64OfBits neg m) = m := by
  unfold magBits
  rw [f64OfBits_toNat neg m h]
  cases neg <;> simp <;> omega

theorem f64Finite_iff (x : F64) : f64Finite x = true ↔ magBits x < 2047 * 2 ^ 52 := by
  have : magBits x < 2 ^ 63 := Nat.mod_lt _ (by norm_num)
  unfold f64Finite
  rw [f64Exp_eq, decide_eq_true_iff]
  omega

/-! ### The nearest integer -/

/-- Rounding to nearest: the floor or the integer after it, whichever is nearer, and on a tie the even one
(R171). -/
theorem roundInt_spec (n d : Nat) (hd : 0 < d) :
    (roundInt .tiesToEven n d = n / d ∧ (2 : ℚ) * (n / d) ≤ 2 * (n / d : ℕ) + 1 ∧
        ((2 : ℚ) * (n / d) = 2 * (n / d : ℕ) + 1 → n / d % 2 = 0)) ∨
    (roundInt .tiesToEven n d = n / d + 1 ∧ 2 * (n / d : ℕ) + 1 ≤ (2 : ℚ) * (n / d) ∧
        ((2 : ℚ) * (n / d) = 2 * (n / d : ℕ) + 1 → (n / d + 1) % 2 = 0)) := by
  have hdq : (0 : ℚ) < d := by exact_mod_cast hd
  have hdm : (n : ℚ) = d * (n / d : ℕ) + (n % d : ℕ) := by exact_mod_cast (Nat.div_add_mod n d).symm
  have hle : ((2 : ℚ) * (n / d) ≤ 2 * (n / d : ℕ) + 1) ↔ 2 * (n % d) ≤ d := by
    rw [← mul_div_assoc, div_le_iff₀ hdq, hdm]
    constructor <;> intro h
    · have : (2 : ℚ) * (n % d : ℕ) ≤ d := by nlinarith
      exact_mod_cast this
    · have : (2 : ℚ) * (n % d : ℕ) ≤ d := by exact_mod_cast h
      nlinarith
  have hge : (2 * (n / d : ℕ) + 1 ≤ (2 : ℚ) * (n / d)) ↔ d ≤ 2 * (n % d) := by
    rw [← mul_div_assoc, le_div_iff₀ hdq, hdm]
    constructor <;> intro h
    · have : (d : ℚ) ≤ 2 * (n % d : ℕ) := by nlinarith
      exact_mod_cast this
    · have : (d : ℚ) ≤ 2 * (n % d : ℕ) := by exact_mod_cast h
      nlinarith
  have heq : ((2 : ℚ) * (n / d) = 2 * (n / d : ℕ) + 1) → d = 2 * (n % d) := fun h =>
    le_antisymm (hge.1 h.ge) (hle.1 h.le)
  unfold roundInt
  simp only
  split
  · rename_i h
    exact .inr ⟨rfl, hge.2 (by omega), fun t => by have := heq t; omega⟩
  · rename_i h
    exact .inl ⟨rfl, hle.2 (by omega), fun t => by have := heq t; omega⟩

/-! ### The rounded ratio -/

theorem ratLog2_spec (n d : Nat) (hn : 0 < n) (hd : 0 < d) :
    (2 : ℚ) ^ ratLog2 n d ≤ n / d ∧ (n / d : ℚ) < 2 ^ (ratLog2 n d + 1) := by
  have hdq : (0 : ℚ) < d := by exact_mod_cast hd
  have n1 : ((2 ^ Nat.log2 n : ℕ) : ℚ) ≤ n := by exact_mod_cast Nat.log2_self_le hn.ne'
  have n2 : (n : ℚ) < ((2 ^ (Nat.log2 n + 1) : ℕ) : ℚ) := by exact_mod_cast Nat.lt_log2_self
  have d1 : ((2 ^ Nat.log2 d : ℕ) : ℚ) ≤ d := by exact_mod_cast Nat.log2_self_le hd.ne'
  have d2 : (d : ℚ) < ((2 ^ (Nat.log2 d + 1) : ℕ) : ℚ) := by exact_mod_cast Nat.lt_log2_self
  push_cast at n1 n2 d1 d2
  set a := Nat.log2 n
  set b := Nat.log2 d
  have two : (2 : ℚ) ≠ 0 := by norm_num
  -- the comparison the definition makes
  have cmp : (d * 2 ^ ((a : ℤ) - b).toNat ≤ n * 2 ^ (-((a : ℤ) - b)).toNat) ↔ (2 : ℚ) ^ ((a : ℤ) - b) ≤ n / d := by
    rw [le_div_iff₀ hdq]
    rcases le_total (0 : ℤ) ((a : ℤ) - b) with h | h
    · obtain ⟨k, hk⟩ := Int.eq_ofNat_of_zero_le h
      rw [hk]
      simp only [Int.toNat_natCast, zpow_natCast]
      rw [show (-(k : ℤ)).toNat = 0 by omega, pow_zero, mul_one, mul_comm]
      exact_mod_cast Iff.rfl
    · obtain ⟨k, hk⟩ := Int.eq_ofNat_of_zero_le (neg_nonneg.2 h)
      have hk' : (a : ℤ) - b = -(k : ℤ) := by omega
      rw [hk']
      simp only [neg_neg, Int.toNat_natCast, zpow_neg, zpow_natCast]
      rw [show (-(k : ℤ)).toNat = 0 by omega, pow_zero, mul_one, inv_mul_le_iff₀ (by positivity), mul_comm]
      exact_mod_cast Iff.rfl
  have up : (n / d : ℚ) < 2 ^ ((a : ℤ) - b + 1) := by
    rw [div_lt_iff₀ hdq]
    calc (n : ℚ) < 2 ^ (a + 1) := n2
      _ = 2 ^ ((a : ℤ) - b + 1) * 2 ^ b := by
        rw [← zpow_natCast, ← zpow_natCast, ← zpow_add₀ two]; congr 1; push_cast; ring
      _ ≤ 2 ^ ((a : ℤ) - b + 1) * d := by gcongr
  have low : (2 : ℚ) ^ ((a : ℤ) - b - 1) ≤ n / d := by
    rw [le_div_iff₀ hdq]
    calc (2 : ℚ) ^ ((a : ℤ) - b - 1) * d ≤ 2 ^ ((a : ℤ) - b - 1) * 2 ^ (b + 1) := by gcongr
      _ = 2 ^ a := by
        rw [← zpow_natCast, ← zpow_natCast, ← zpow_add₀ two]; congr 1; push_cast; ring
      _ ≤ n := n1
  unfold ratLog2
  simp only
  split
  · rename_i h
    exact ⟨cmp.1 h, up⟩
  · rename_i h
    refine ⟨low, ?_⟩
    rw [sub_add_cancel]
    exact not_le.1 fun h' => h (cmp.2 h')

/-- A positive ratio below `2^1023` rounds to a finite magnitude: no magnitude is nearer to it, and where
another is as near the last bit is 0 (R171). -/
theorem roundMagnitude_nearest (n d : Nat) (hn : 0 < n) (hd : 0 < d) (hx : (n / d : ℚ) < 2 ^ 1023) :
    roundMagnitude .tiesToEven n d < 2047 * 2 ^ 52 ∧
    ∀ m, |magValue (roundMagnitude .tiesToEven n d) - n / d| ≤ |magValue m - n / d| ∧
      (m ≠ roundMagnitude .tiesToEven n d →
        |magValue m - n / d| = |magValue (roundMagnitude .tiesToEven n d) - n / d| →
        roundMagnitude .tiesToEven n d % 2 = 0) := by
  obtain ⟨lo, hi⟩ := ratLog2_spec n d hn hd
  have two : (2 : ℚ) ≠ 0 := by norm_num
  have one_two : (1 : ℚ) < 2 := by norm_num
  have hdq : (0 : ℚ) < d := by exact_mod_cast hd
  have hnq : (0 : ℚ) < n := by exact_mod_cast hn
  -- the binade
  set e : ℤ := max (ratLog2 n d) (-1022) with he
  have hl : ratLog2 n d ≤ 1022 := by
    have h : (2 : ℚ) ^ ratLog2 n d < 2 ^ (1023 : ℤ) := lt_of_le_of_lt lo (by exact_mod_cast hx)
    have := (zpow_lt_zpow_iff_right₀ one_two).1 h
    omega
  obtain ⟨k, hk⟩ : ∃ k : ℕ, e + 1022 = k := Int.eq_ofNat_of_zero_le (by omega)
  have hk2044 : k ≤ 2044 := by omega
  set u : ℚ := 2 ^ ((k + 1 : ℤ) - 1075) with hu
  have hupos : 0 < u := by positivity
  have hue : u = 2 ^ (e - 52) := by rw [hu]; congr 1; omega
  -- the scaled ratio
  set sn := n * 2 ^ (52 - e).toNat with hsn
  set sd := d * 2 ^ (e - 52).toNat with hsd
  have hsdpos : 0 < sd := by positivity
  have hscale : (sn / sd : ℚ) * u = n / d := by
    rw [hue, hsn, hsd]
    push_cast
    rcases le_total (0 : ℤ) (e - 52) with h | h
    · obtain ⟨j, hj⟩ := Int.eq_ofNat_of_zero_le h
      rw [show (52 - e).toNat = 0 by omega, hj]
      simp only [Int.toNat_natCast, zpow_natCast, pow_zero, mul_one]
      field_simp
    · obtain ⟨j, hj⟩ := Int.eq_ofNat_of_zero_le (neg_nonneg.2 h)
      rw [show (e - 52).toNat = 0 by omega, show (52 - e).toNat = j by omega, show e - 52 = -(j : ℤ) by omega]
      simp only [zpow_neg, zpow_natCast, pow_zero, mul_one]
      field_simp
  set f := sn / sd with hf
  have hf1 : (f : ℚ) ≤ sn / sd := Nat.cast_div_le
  have hf2 : (sn / sd : ℚ) < f + 1 := by
    rw [div_lt_iff₀ (by exact_mod_cast hsdpos)]
    have : sn < (f + 1) * sd := by
      have := Nat.lt_div_mul_add (a := sn) hsdpos
      rw [← hf] at this
      linarith
    exact_mod_cast this
  have hX53 : (sn / sd : ℚ) < 2 ^ 53 := by
    have h : (sn / sd : ℚ) * u < 2 ^ 53 * u := by
      rw [hscale]
      calc (n / d : ℚ) < 2 ^ (ratLog2 n d + 1) := hi
        _ ≤ 2 ^ (e + 1) := zpow_le_zpow_right₀ one_two.le (by omega)
        _ = 2 ^ 53 * u := by
          rw [hue, ← zpow_natCast, ← zpow_add₀ two]; congr 1; push_cast; ring
    exact lt_of_mul_lt_mul_right h hupos.le
  have hX52 : k = 0 ∨ (2 : ℚ) ^ 52 ≤ sn / sd := by
    rcases Nat.eq_zero_or_pos k with h0 | h0
    · exact .inl h0
    · refine .inr (le_of_mul_le_mul_right ?_ hupos)
      rw [hscale]
      have hee : e = ratLog2 n d := by omega
      calc (2 : ℚ) ^ 52 * u = 2 ^ e := by
            rw [hue, ← zpow_natCast, ← zpow_add₀ two]; congr 1; push_cast; ring
        _ = 2 ^ ratLog2 n d := by rw [hee]
        _ ≤ n / d := lo
  have hf53 : f + 1 ≤ 2 ^ 53 := by
    have : (f : ℚ) < 2 ^ 53 := lt_of_le_of_lt hf1 hX53
    exact_mod_cast this
  have hf52 : k = 0 ∨ 2 ^ 52 ≤ f := by
    rcases hX52 with h | h
    · exact .inl h
    · refine .inr (Nat.lt_succ_iff.1 ?_)
      have : (2 : ℚ) ^ 52 < f + 1 := lt_of_le_of_lt h hf2
      exact_mod_cast this
  -- the two neighbours
  have vlo : magValue (k * 2 ^ 52 + f) = f * u := magValue_binade k f hf52 (by omega)
  have vhi : magValue (k * 2 ^ 52 + (f + 1)) = (f + 1) * u := by
    rw [magValue_binade k (f + 1) (by omega) hf53]; push_cast; rfl
  have hM : roundMagnitude .tiesToEven n d = k * 2 ^ 52 + roundInt .tiesToEven sn sd := by
    have hr : roundInt .tiesToEven sn sd ≤ f + 1 := by
      rcases roundInt_spec sn sd hsdpos with ⟨h, -⟩ | ⟨h, -⟩ <;> omega
    unfold roundMagnitude
    simp only
    rw [← he, ← hsn, ← hsd, hk, Int.toNat_natCast]
    apply Nat.min_eq_left
    omega
  have hxlo : (f : ℚ) * u ≤ n / d := by rw [← hscale]; gcongr
  have hxhi : (n / d : ℚ) < (f + 1) * u := by rw [← hscale]; gcongr
  have below (m : Nat) (h : m ≤ k * 2 ^ 52 + f) : (n / d : ℚ) - f * u ≤ |magValue m - n / d| := by
    have := magValue_strictMono.monotone h
    rw [vlo] at this
    rw [abs_sub_comm]
    exact le_trans (by linarith) (le_abs_self _)
  have above (m : Nat) (h : k * 2 ^ 52 + (f + 1) ≤ m) : ((f : ℚ) + 1) * u - n / d ≤ |magValue m - n / d| := by
    have := magValue_strictMono.monotone h
    rw [vhi] at this
    exact le_trans (by linarith) (le_abs_self _)
  have half : ((2 : ℚ) * (sn / sd) * u = 2 * (n / d)) := by rw [mul_assoc, hscale]
  rcases roundInt_spec sn sd hsdpos with ⟨hr, hh, ht⟩ | ⟨hr, hh, ht⟩
  · rw [← hf] at hr hh ht
    rw [hr] at hM
    have hh' : 2 * ((n : ℚ) / d) ≤ (2 * f + 1) * u := by rw [← half]; gcongr
    have hdist : |magValue (k * 2 ^ 52 + f) - n / d| = n / d - f * u := by
      rw [vlo, abs_sub_comm, abs_of_nonneg (by linarith)]
    rw [hM, hdist]
    refine ⟨by omega, fun m => ⟨?_, fun hne htie => ?_⟩⟩
    · rcases Nat.lt_or_ge m (k * 2 ^ 52 + (f + 1)) with h | h
      · exact below m (by omega)
      · exact le_trans (by linarith) (above m h)
    · rcases Nat.lt_or_ge m (k * 2 ^ 52 + (f + 1)) with h | h
      · exfalso
        have hlt := magValue_strictMono (show m < k * 2 ^ 52 + f by omega)
        rw [vlo] at hlt
        have : (n / d : ℚ) - magValue m ≤ |magValue m - n / d| := by rw [abs_sub_comm]; exact le_abs_self _
        linarith
      · have h1 := above m h
        have : (2 * f + 1 : ℚ) * u ≤ 2 * (sn / sd) * u := by rw [half]; linarith
        have : (2 * f + 1 : ℚ) ≤ 2 * (sn / sd) := le_of_mul_le_mul_right this hupos
        have := ht (le_antisymm hh this)
        omega
  · rw [← hf] at hr hh ht
    rw [hr] at hM
    have hh' : (2 * f + 1) * u ≤ 2 * ((n : ℚ) / d) := by rw [← half]; gcongr
    have hdist : |magValue (k * 2 ^ 52 + (f + 1)) - n / d| = (f + 1) * u - n / d := by
      rw [vhi, abs_of_nonneg (by linarith)]
    rw [hM, hdist]
    refine ⟨by omega, fun m => ⟨?_, fun hne htie => ?_⟩⟩
    · rcases Nat.lt_or_ge m (k * 2 ^ 52 + (f + 1)) with h | h
      · exact le_trans (by linarith) (below m (by omega))
      · exact above m h
    · rcases Nat.lt_or_ge m (k * 2 ^ 52 + (f + 1)) with h | h
      · have h1 := below m (by omega)
        have : 2 * (sn / sd : ℚ) * u ≤ (2 * f + 1) * u := by rw [half]; linarith
        have : 2 * (sn / sd : ℚ) ≤ 2 * f + 1 := le_of_mul_le_mul_right this hupos
        have := ht (le_antisymm this hh)
        omega
      · exfalso
        have hlt := magValue_strictMono (show k * 2 ^ 52 + (f + 1) < m by omega)
        rw [vhi] at hlt
        have : magValue m - n / d ≤ |magValue m - n / d| := le_abs_self _
        linarith

theorem magValue_zero : magValue 0 = 0 := by
  have := magValue_binade 0 0 (.inl rfl) (by norm_num)
  simpa using this

/-- The sign of a pattern as a factor. -/
def signQ (neg : Bool) : ℚ := if neg then -1 else 1

/-- The spec of `roundRatio` (R171): the result is finite, no finite pattern is nearer to the exact ratio,
and where another value is as near the last fraction bit is 0. -/
theorem roundRatio_nearest (neg : Bool) (n d : Nat) (hd : 0 < d) (hx : (n / d : ℚ) < 2 ^ 1023) :
    f64Finite (roundRatio .tiesToEven neg n d) = true ∧
    ∀ y : F64,
      |f64Value (roundRatio .tiesToEven neg n d) - signQ neg * (n / d)| ≤ |f64Value y - signQ neg * (n / d)| ∧
      (f64Value y ≠ f64Value (roundRatio .tiesToEven neg n d) →
        |f64Value y - signQ neg * (n / d)| = |f64Value (roundRatio .tiesToEven neg n d) - signQ neg * (n / d)| →
        (roundRatio .tiesToEven neg n d).getLsbD 0 = false) := by
  obtain ⟨M, hMdef, hMfin, hMnear⟩ : ∃ M, roundRatio .tiesToEven neg n d = f64OfBits neg M ∧ M < 2047 * 2 ^ 52 ∧
      ∀ m, |magValue M - n / d| ≤ |magValue m - n / d| ∧
        (m ≠ M → |magValue m - n / d| = |magValue M - n / d| → M % 2 = 0) := by
    rcases Nat.eq_zero_or_pos n with h | h
    · subst h
      refine ⟨0, by simp [roundRatio], by norm_num, fun m => ⟨?_, fun _ _ => rfl⟩⟩
      simp [magValue_zero]
    · exact ⟨roundMagnitude .tiesToEven n d, by simp [roundRatio, h.ne'], roundMagnitude_nearest n d h hd hx⟩
  have hM63 : M < 2 ^ 63 := lt_trans hMfin (by norm_num)
  have hval : f64Value (f64OfBits neg M) = signQ neg * magValue M := by
    rw [f64Value_eq, f64OfBits_neg neg M hM63, magBits_f64OfBits neg M hM63]; rfl
  have hxnn : (0 : ℚ) ≤ n / d := div_nonneg n.cast_nonneg d.cast_nonneg
  have hsign : |signQ neg| = 1 := by cases neg <;> simp [signQ]
  have hdistM : |f64Value (f64OfBits neg M) - signQ neg * (n / d)| = |magValue M - n / d| := by
    rw [hval, ← mul_sub, abs_mul, hsign, one_mul]
  have hlast : (f64OfBits neg M).getLsbD 0 = decide (M % 2 = 1) := by
    rw [BitVec.getLsbD, f64OfBits_toNat neg M hM63, Nat.testBit_zero]
    cases neg <;> simp
    omega
  rw [hMdef, hdistM, hlast, hval]
  refine ⟨(f64Finite_iff _).2 (by rw [magBits_f64OfBits neg M hM63]; exact hMfin), fun y => ?_⟩
  rw [f64Value_eq]
  by_cases hs : f64Neg y = neg
  · have hy : (if f64Neg y then -1 else 1 : ℚ) = signQ neg := by rw [hs]; rfl
    have hdy : |signQ neg * magValue (magBits y) - signQ neg * (n / d)| = |magValue (magBits y) - n / d| := by
      rw [← mul_sub, abs_mul, hsign, one_mul]
    rw [hy, hdy]
    refine ⟨(hMnear _).1, fun hne htie => ?_⟩
    have := (hMnear (magBits y)).2 (fun h => hne (by rw [h])) htie
    simp [this]
  · have hy : (if f64Neg y then -1 else 1 : ℚ) = -signQ neg := by
      cases neg <;> cases h : f64Neg y <;> simp_all [signQ]
    have hdy : |-signQ neg * magValue (magBits y) - signQ neg * (n / d)| = magValue (magBits y) + n / d := by
      rw [show -signQ neg * magValue (magBits y) - signQ neg * (n / d) =
        -(signQ neg * (magValue (magBits y) + n / d)) by ring, abs_neg, abs_mul, hsign, one_mul,
        abs_of_nonneg (add_nonneg (magValue_nonneg _) hxnn)]
    have hzero := (hMnear 0).1
    rw [magValue_zero, zero_sub, abs_neg, abs_of_nonneg hxnn] at hzero
    have hnn := magValue_nonneg (magBits y)
    rw [hy, hdy]
    refine ⟨by linarith, fun hne htie => ?_⟩
    have hmy : magValue (magBits y) = 0 := by linarith
    have hM0 : M ≠ 0 := by
      rintro rfl
      exact hne (by rw [hmy, magValue_zero]; ring)
    have := (hMnear 0).2 hM0.symm (by
      rw [magValue_zero, zero_sub, abs_neg, abs_of_nonneg hxnn]; linarith)
    simp [this]

/-! ### The two operations of the converter -/

/-- The spec of `i2f` (R171). -/
theorem i2f_nearest (z : Int) (hz : |(z : ℚ)| < 2 ^ 1023) : IsNearest (i2f .tiesToEven z) z := by
  have habs : ((z.natAbs : ℚ) / (1 : ℕ)) = |(z : ℚ)| := by
    rw [Nat.cast_one, div_one, Nat.cast_natAbs, Int.cast_abs]
  have hsigned : signQ (decide (z < 0)) * ((z.natAbs : ℚ) / (1 : ℕ)) = z := by
    rw [habs]
    rcases lt_or_ge z 0 with h | h
    · simp [signQ, h, abs_of_neg (show (z : ℚ) < 0 by exact_mod_cast h)]
    · simp [signQ, not_lt.2 h, abs_of_nonneg (show (0 : ℚ) ≤ z by exact_mod_cast h)]
  have := roundRatio_nearest (decide (z < 0)) z.natAbs 1 Nat.one_pos (by rw [habs]; exact hz)
  rw [hsigned] at this
  exact this

theorem f64Den_pos (x : F64) : 0 < f64Den x := Nat.two_pow_pos _

/-- The quotient of two signed ratios of naturals as one signed ratio. -/
theorem signed_ratio_div (sa sb : Bool) (na da nb db : Nat) :
    (if sa then -1 else 1 : ℚ) * (na / da) / ((if sb then -1 else 1) * (nb / db)) =
      signQ (sa ^^ sb) * ((na * db : ℕ) / (da * nb : ℕ)) ∧
    |signQ (sa ^^ sb) * (((na * db : ℕ) : ℚ) / (da * nb : ℕ))| = ((na * db : ℕ) : ℚ) / (da * nb : ℕ) := by
  have hpos : (0 : ℚ) ≤ ((na * db : ℕ) : ℚ) / (da * nb : ℕ) := div_nonneg (Nat.cast_nonneg _) (Nat.cast_nonneg _)
  constructor
  · push_cast
    cases sa <;> cases sb <;> simp [signQ, neg_div, div_neg, div_div_div_eq]
  · rw [abs_mul, abs_of_nonneg hpos]
    cases (sa ^^ sb) <;> simp [signQ]

/-- The quotient of two values is the signed ratio that `fdiv` rounds. -/
theorem f64Value_div (a b : F64) :
    f64Value a / f64Value b =
      signQ (f64Neg a ^^ f64Neg b) * (((f64Num a * f64Den b : ℕ) : ℚ) / (f64Den a * f64Num b : ℕ)) :=
  (signed_ratio_div ..).1

/-- The spec of `fdiv` on finite patterns and a divisor that is not zero (R171). -/
theorem fdiv_nearest (a b : F64) (ha : f64Finite a = true) (hb : f64Finite b = true) (hb0 : f64Mant b ≠ 0)
    (hq : |f64Value a / f64Value b| < 2 ^ 1023) : IsNearest (fdiv .tiesToEven a b) (f64Value a / f64Value b) := by
  have hfdiv : fdiv .tiesToEven a b = roundRatio .tiesToEven (f64Neg a ^^ f64Neg b) (f64Num a * f64Den b)
      (f64Den a * f64Num b) := by
    unfold fdiv
    rw [ha, hb, decide_eq_true hb0]
    rfl
  have hpos : 0 < f64Den a * f64Num b :=
    Nat.mul_pos (f64Den_pos a) (Nat.mul_pos (Nat.pos_of_ne_zero hb0) (Nat.two_pow_pos _))
  rw [f64Value_div, (signed_ratio_div ..).2] at hq
  rw [hfdiv, f64Value_div]
  exact roundRatio_nearest _ _ _ hpos hq

end Sys2Proof.Machine
end

