-- ==== Sys2Proof/Laws/State.lean ====
section
/-! SUPPORT. One lemma per field per update of State, true by unfolding, so that no later proof unfolds a
record update. -/

namespace Sys2Proof.Machine

section respond
variable (s : State) (r : Response)

@[simp] theorem respond_lifecycle : (s.respond r).lifecycle = s.lifecycle := rfl
@[simp] theorem respond_work : (s.respond r).work = s.work := rfl
@[simp] theorem respond_inputs : (s.respond r).inputs = s.inputs := rfl
@[simp] theorem respond_answers : (s.respond r).answers = s.answers := rfl
@[simp] theorem respond_oracleIndex : (s.respond r).oracleIndex = s.oracleIndex := rfl
@[simp] theorem respond_busTrace : (s.respond r).busTrace = s.busTrace := rfl
@[simp] theorem respond_responses : (s.respond r).responses = s.responses ++ [r] := rfl

end respond

section busIoError
variable (s : State) (i : Nat)

@[simp] theorem busIoError_lifecycle : (s.busIoError i).lifecycle = s.lifecycle := rfl
@[simp] theorem busIoError_work : (s.busIoError i).work = s.work := rfl
@[simp] theorem busIoError_inputs : (s.busIoError i).inputs = s.inputs := rfl
@[simp] theorem busIoError_answers : (s.busIoError i).answers = s.answers := rfl
@[simp] theorem busIoError_oracleIndex : (s.busIoError i).oracleIndex = s.oracleIndex := rfl
@[simp] theorem busIoError_busTrace : (s.busIoError i).busTrace = s.busTrace := rfl
@[simp] theorem busIoError_responses : (s.busIoError i).responses = s.responses ++ [.busIoError i] := rfl

end busIoError

section refuse
variable (s : State)

@[simp] theorem refuse_lifecycle : (s.refuse).lifecycle = s.lifecycle := rfl
@[simp] theorem refuse_work : (s.refuse).work = s.work := rfl
@[simp] theorem refuse_inputs : (s.refuse).inputs = s.inputs := rfl
@[simp] theorem refuse_answers : (s.refuse).answers = s.answers := rfl
@[simp] theorem refuse_oracleIndex : (s.refuse).oracleIndex = s.oracleIndex := rfl
@[simp] theorem refuse_busTrace : (s.refuse).busTrace = s.busTrace := rfl
@[simp] theorem refuse_responses : (s.refuse).responses = s.responses ++ [.refused] := rfl

end refuse

section issue
variable (s : State) (dev : DevAddr) (txns : List Txn)

@[simp] theorem issue_lifecycle : (s.issue dev txns).lifecycle = s.lifecycle := rfl
@[simp] theorem issue_work : (s.issue dev txns).work = s.work := rfl
@[simp] theorem issue_inputs : (s.issue dev txns).inputs = s.inputs := rfl
@[simp] theorem issue_answers : (s.issue dev txns).answers = s.answers.drop txns.length := rfl
@[simp] theorem issue_oracleIndex : (s.issue dev txns).oracleIndex = s.oracleIndex + txns.length := rfl
@[simp] theorem issue_busTrace : (s.issue dev txns).busTrace = s.busTrace ++ s.records dev txns := rfl
@[simp] theorem issue_responses : (s.issue dev txns).responses = s.responses := rfl

end issue

section hardwareReset
variable (s : State)

@[simp] theorem hardwareReset_lifecycle : (s.hardwareReset).lifecycle = .unconstructed := rfl
@[simp] theorem hardwareReset_work : (s.hardwareReset).work = none := rfl
@[simp] theorem hardwareReset_inputs : (s.hardwareReset).inputs = s.inputs := rfl
@[simp] theorem hardwareReset_answers : (s.hardwareReset).answers = s.answers := rfl
@[simp] theorem hardwareReset_oracleIndex : (s.hardwareReset).oracleIndex = s.oracleIndex := rfl
@[simp] theorem hardwareReset_busTrace : (s.hardwareReset).busTrace = s.busTrace := rfl
@[simp] theorem hardwareReset_responses : (s.hardwareReset).responses = s.responses := rfl

end hardwareReset

section measure
variable (s : State) (cal : Calibration) (b : Block 8)

@[simp] theorem measure_lifecycle : (s.measure cal b).lifecycle = s.lifecycle := rfl
@[simp] theorem measure_work : (s.measure cal b).work = some (runStages params cal b) := rfl
@[simp] theorem measure_inputs : (s.measure cal b).inputs = s.inputs := rfl
@[simp] theorem measure_answers : (s.measure cal b).answers = s.answers := rfl
@[simp] theorem measure_oracleIndex : (s.measure cal b).oracleIndex = s.oracleIndex := rfl
@[simp] theorem measure_busTrace : (s.measure cal b).busTrace = s.busTrace := rfl
@[simp] theorem measure_responses : (s.measure cal b).responses = s.responses := rfl

end measure

section commitDevice
variable (s : State) (address : DevAddr) (bytes : Nat → Nat → Byte)

@[simp] theorem commitDevice_lifecycle : (commitDevice address bytes s).lifecycle = .ready address (calFromReads params.calOrder bytes) := rfl
@[simp] theorem commitDevice_work : (commitDevice address bytes s).work = s.work := rfl
@[simp] theorem commitDevice_inputs : (commitDevice address bytes s).inputs = s.inputs := rfl
@[simp] theorem commitDevice_answers : (commitDevice address bytes s).answers = s.answers := rfl
@[simp] theorem commitDevice_oracleIndex : (commitDevice address bytes s).oracleIndex = s.oracleIndex := rfl
@[simp] theorem commitDevice_busTrace : (commitDevice address bytes s).busTrace = s.busTrace := rfl
@[simp] theorem commitDevice_responses : (commitDevice address bytes s).responses = s.responses ++ [.ok] := rfl

end commitDevice

section withFetchWord
variable (s : State) (nbits w : Nat)

@[simp] theorem withFetchWord_lifecycle : (s.withFetchWord nbits w).lifecycle = s.lifecycle := rfl
@[simp] theorem withFetchWord_work : (s.withFetchWord nbits w).work = s.work := rfl
@[simp] theorem withFetchWord_inputs : (s.withFetchWord nbits w).inputs = .command (BitVec.ofNat 16 (w % 2 ^ nbits)) :: s.inputs := rfl
@[simp] theorem withFetchWord_answers : (s.withFetchWord nbits w).answers = s.answers := rfl
@[simp] theorem withFetchWord_oracleIndex : (s.withFetchWord nbits w).oracleIndex = s.oracleIndex := rfl
@[simp] theorem withFetchWord_busTrace : (s.withFetchWord nbits w).busTrace = s.busTrace := rfl
@[simp] theorem withFetchWord_responses : (s.withFetchWord nbits w).responses = s.responses := rfl

end withFetchWord

/-- Delivering a Measurement clears the working registers and appends the response; everything else stays. -/
theorem deliver_measure (s : State) (cal : Calibration) (b : Block 8) :
    (s.measure cal b).deliver =
      { s with
        work := none
        responses := s.responses ++ [.meas (convert params.f64Round (runStages params cal b))] } := rfl

end Sys2Proof.Machine
end

