-- ==== Sys2Proof/Laws/Ops.lean ====
section
/-! SUPPORT. What the shared operations can do: one lemma per operation, which later proofs cite instead of
unfolding it. -/

namespace Sys2Proof.Machine

/-! ### The oracle -/

/-- With nothing listed, no transaction hangs. -/
@[simp] theorem hangs_nil (n : Nat) : hangs n [] = false := by cases n <;> rfl

@[simp] theorem hangs_zero (as : List Answer) : hangs 0 as = false := by cases as <;> rfl

@[simp] theorem hangs_ok (n : Nat) (bytes : List Byte) (as : List Answer) :
    hangs (n + 1) (.ok bytes :: as) = hangs n as := rfl

@[simp] theorem hangs_fail (n : Nat) (as : List Answer) : hangs (n + 1) (.fail :: as) = false := rfl

@[simp] theorem hangs_never (n : Nat) (as : List Answer) : hangs (n + 1) (.never :: as) = true := rfl

/-- A transport that keeps its contract never hangs a command. -/
theorem hangs_of_never_not_mem (n : Nat) (as : List Answer) (h : Answer.never ∉ as) : hangs n as = false := by
  induction n generalizing as with
  | zero => simp
  | succ n ih =>
    match as, h with
    | [], _ => rfl
    | .ok _ :: rest, h => exact ih rest fun m => h (List.mem_cons_of_mem _ m)
    | .fail :: _, _ => rfl
    | .never :: _, h => exact absurd (List.mem_cons_self ..) h

@[simp] theorem answerFails_ok (s : State) (j : Nat) (bytes : List Byte) (h : s.answers[j]? = some (.ok bytes)) :
    s.answerFails j = false := by simp [State.answerFails, h]

@[simp] theorem answerFails_fail (s : State) (j : Nat) (h : s.answers[j]? = some .fail) :
    s.answerFails j = true := by simp [State.answerFails, h]

/-- A listed answer that is long enough delivers its own bytes. -/
theorem answerByte_ok (s : State) (j i : Nat) (bytes : List Byte) (h : s.answers[j]? = some (.ok bytes))
    (hi : i < bytes.length) : s.answerByte j i = bytes[i] := by simp [State.answerByte, h, hi]

/-- The first failure is at an index below `n` that fails, with every earlier one succeeding. -/
theorem firstFailure_some {s : State} {n i : Nat} (h : s.firstFailure n = some i) :
    i < n ∧ s.answerFails i = true ∧ ∀ j < i, s.answerFails j = false := by
  simp only [State.firstFailure, List.find?_range_eq_some] at h
  simpa [and_comm, and_left_comm, and_assoc] using h

theorem firstFailure_none {s : State} {n : Nat} (h : s.firstFailure n = none) :
    ∀ j < n, s.answerFails j = false := by
  simpa [State.firstFailure] using h

/-- What it means that the next `n` transactions succeed. -/
theorem busSucceeds_iff (s : State) (n : Nat) :
    s.busSucceeds n = true ↔ hangs n s.answers = false ∧ s.firstFailure n = none := by
  simp [State.busSucceeds]

/-! ### The transactions of a command -/

theorem records_length (s : State) (dev : DevAddr) (txns : List Txn) :
    (s.records dev txns).length = txns.length := by simp [State.records]

/-- The records carry the transactions in the order issued, all to this device. -/
theorem records_txn (s : State) (dev : DevAddr) (txns : List Txn) :
    (s.records dev txns).map BusRecord.txn = txns := by
  simp [State.records, Function.comp_def, List.zipIdx_map_fst]

theorem mem_records {s : State} {dev : DevAddr} {txns : List Txn} {r : BusRecord} (h : r ∈ s.records dev txns) :
    r.dev = dev ∧ r.txn ∈ txns := by
  simp only [State.records, List.mem_map] at h
  obtain ⟨p, hp, rfl⟩ := h
  exact ⟨rfl, List.mem_of_getElem? (List.mem_zipIdx_iff_getElem?.1 hp)⟩

theorem records_singleton (s : State) (dev : DevAddr) (t : Txn) :
    s.records dev [t] = [{ dev := dev, txn := t, reply := s.reply 0 t }] := rfl

/-- Everything an accepted command can do (R224): hang, fail at a first failing transaction, or complete. -/
theorem transact_cases (dev : DevAddr) (txns : List Txn) (complete : (Nat → Nat → Byte) → State → State) (s : State) :
    (hangs txns.length s.answers = true ∧
        transact dev txns complete s = .fault .transactionNeverCompletes) ∨
    (∃ i, hangs txns.length s.answers = false ∧ s.firstFailure txns.length = some i ∧
        transact dev txns complete s = .next ((s.issue dev (txns.take (i + 1))).busIoError i)) ∨
    (s.busSucceeds txns.length = true ∧
        transact dev txns complete s = .next (complete s.answerByte (s.issue dev txns))) := by
  unfold transact
  cases hh : hangs txns.length s.answers with
  | true => exact .inl ⟨rfl, by simp⟩
  | false =>
    cases hf : s.firstFailure txns.length with
    | some i => exact .inr (.inl ⟨i, rfl, rfl, by simp⟩)
    | none => exact .inr (.inr ⟨(busSucceeds_iff ..).2 ⟨hh, hf⟩, by simp⟩)

/-- An accepted command whose transactions succeed completes. -/
theorem transact_succeeds {dev : DevAddr} {txns : List Txn} {complete : (Nat → Nat → Byte) → State → State} {s : State}
    (h : s.busSucceeds txns.length = true) :
    transact dev txns complete s = .next (complete s.answerByte (s.issue dev txns)) := by
  obtain ⟨hh, hf⟩ := (busSucceeds_iff ..).1 h
  simp [transact, hh, hf]

/-- An accepted command ends at its first failing transaction. -/
theorem transact_fails {dev : DevAddr} {txns : List Txn} {complete : (Nat → Nat → Byte) → State → State} {s : State}
    {i : Nat} (hh : hangs txns.length s.answers = false) (hf : s.firstFailure txns.length = some i) :
    transact dev txns complete s = .next ((s.issue dev (txns.take (i + 1))).busIoError i) := by
  simp [transact, hh, hf]

theorem whenReady_unconstructed {s : State} {run : DevAddr → Calibration → Host.Outcome State Fault Refusal}
    (h : s.lifecycle = .unconstructed) : whenReady s run = .next s.refuse := by simp [whenReady, h]

theorem whenReady_ready {s : State} {run : DevAddr → Calibration → Host.Outcome State Fault Refusal}
    {dev : DevAddr} {cal : Calibration} (h : s.lifecycle = .ready dev cal) : whenReady s run = run dev cal := by
  simp [whenReady, h]

end Sys2Proof.Machine
end

