-- ==== Sys2Proof/Laws/PerInstr.lean ====
section
/-! SUPPORT. Statements made per instruction, about the instruction as syntax. -/

namespace Sys2Proof.Laws.EncodesItsRow

/-- The word of this command is selected by the row of R73 that bears its mnemonic and its format, and its
ignored bits are 0 (R72, R73, R75). -/
def Statement (i : Instr) : Prop :=
  ∃ r ∈ opcodeTable, r.mnemonic = i.mnemonic ∧ r.format = i.format ∧ r.selects (encode i) = true ∧
    i.format.canonical (encode i) = true

theorem construct (address : DevAddr) : Statement (.construct address) :=
  ⟨⟨"CONSTRUCT", .a, 0x0000, 0xE000⟩, by simp [opcodeTable], rfl, rfl, by revert address; decide,
    by revert address; decide⟩

theorem status : Statement .status :=
  ⟨⟨"STATUS", .n, 0x2000, 0xE000⟩, by simp [opcodeTable], rfl, rfl, by decide, by decide⟩

theorem readId : Statement .readId :=
  ⟨⟨"READ_ID", .n, 0x4000, 0xE000⟩, by simp [opcodeTable], rfl, rfl, by decide, by decide⟩

theorem reset : Statement .reset :=
  ⟨⟨"RESET", .n, 0x6000, 0xE000⟩, by simp [opcodeTable], rfl, rfl, by decide, by decide⟩

theorem writeConfig (standby filter : BitVec 3) (spi3w : BitVec 1) : Statement (.writeConfig standby filter spi3w) :=
  ⟨⟨"WRITE_CONFIG", .c, 0x8000, 0xE000⟩, by simp [opcodeTable], rfl, rfl,
    by revert standby filter spi3w; decide, by revert standby filter spi3w; decide⟩

theorem writeCtrlMeas (tempOs pressOs : BitVec 3) (mode : BitVec 2) : Statement (.writeCtrlMeas tempOs pressOs mode) :=
  ⟨⟨"WRITE_CTRL_MEAS", .m, 0xA000, 0xE000⟩, by simp [opcodeTable], rfl, rfl,
    by revert tempOs pressOs mode; decide, by revert tempOs pressOs mode; decide⟩

theorem writeCtrlHum (os : BitVec 3) : Statement (.writeCtrlHum os) :=
  ⟨⟨"WRITE_CTRL_HUM", .h, 0xC000, 0xE000⟩, by simp [opcodeTable], rfl, rfl, by revert os; decide,
    by revert os; decide⟩

theorem readStatus : Statement .readStatus :=
  ⟨⟨"READ_STATUS", .n, 0xE000, 0xE000⟩, by simp [opcodeTable], rfl, rfl, by decide, by decide⟩

end Sys2Proof.Laws.EncodesItsRow
end

