-- ==== Sys2Proof/Tests/Slice0.lean ====
section
/-! SUPPORT. Own tests: words written out from the spec's encoding, ill-formed terms refused, the vectors of
95_test_vectors.md, and a witness for the hypotheses of every statement that has some. Expected values come
from the spec's tables, never from this model. -/

namespace Sys2Proof.Tests

open Sys2Proof.Machine

/-! ### Helpers -/

/-- The state of a next outcome. -/
def nextOf (o : Host.Outcome State Fault Refusal) : Option State :=
  match o with
  | .next s => some s
  | .fault _ => none
  | .refused _ => none

/-- The outcome is the fault. -/
def isFault (o : Host.Outcome State Fault Refusal) : Bool :=
  match o with
  | .next _ => false
  | .fault _ => true
  | .refused _ => false

/-- A block from its bytes. -/
def block (bytes : List Byte) (n : Nat) : Block n := fun i => bytes.getD i.val 0

/-- Fixture A of 95_test_vectors.md section 2, the 24-byte block. -/
def a24 : List Byte :=
  [0x70, 0x6B, 0x43, 0x67, 0x18, 0xFC, 0x7D, 0x8E, 0x43, 0xD6, 0xD0, 0x0B, 0x27, 0x0B, 0x8C, 0x00] ++
  [0xF9, 0xFF, 0x8C, 0x3C, 0xF8, 0xC6, 0x70, 0x17]

/-- Fixture A, the 8-byte block. -/
def a8 : List Byte := [0x6F, 0x01, 0x00, 0x13, 0x28, 0x03, 0x1E, 0x00]

/-- Fixture A's coefficient file in its storage bits. -/
def calA : Calibration :=
  { T1 := 27504, T2 := 26435, T3 := -1000, P1 := 36477, P2 := -10685, P3 := 3024, P4 := 2855, P5 := 140, P6 := -7,
    P7 := 15500, P8 := -14600, P9 := 6000, H1 := 75, H2 := 367, H3 := 0, H4 := 312, H5 := 50, H6 := 30 }

/-- Fixture A's pressure coefficients. -/
def pA : Config.PCoeffs := ⟨36477, -10685, 3024, 2855, 140, -7, 15500, -14600, 6000⟩

/-- Fixture A's humidity coefficients. -/
def hA : Config.HCoeffs := ⟨75, 367, 0, 312, 50, 30⟩

/-- The burst RD1, that of PR1. -/
def burst : List Byte := [0x65, 0x5A, 0x30, 0x7E, 0xED, 0x00, 0x75, 0x30]

/-- `UNCONSTRUCTED`, the sensor about to give these answers. -/
def fresh (answers : List Answer) : State := { State.reset with answers := answers }

/-- `READY` with fixture A at address 0x76, the sensor about to give these answers. -/
def ready (answers : List Answer) : State :=
  { State.reset with lifecycle := .ready 0x76 calA, answers := answers }

/-- The three answers of a CONSTRUCT with fixture A. -/
def answersA : List Answer := [.ok a24, .ok [0x4B], .ok a8]

/-- What a command leaves: the lifecycle state, the responses and, for each transaction, the device, the
bytes the engine drove and the sensor's reply. -/
structure Seen where
  lifecycle : Lifecycle
  responses : List Response
  bus : List (DevAddr × List Byte × Reply)
deriving DecidableEq, Repr

/-- A command run in this state. -/
def seen (i : Instr) (s : State) : Option Seen :=
  (nextOf (exec i s)).map fun t => ⟨t.lifecycle, t.responses, t.busTrace.map fun r => (r.dev, r.txn.frame, r.reply)⟩

/-! ### Encoding: words from R72, R73 and section 8 of 95_test_vectors.md -/

theorem test_decode_construct : decode 0x0076 = .construct 0x76 ∧ decode 0x1FF7 = .construct 0x77 := by decide

theorem test_decode_status : decode 0x2000 = .status ∧ decode 0x3FFF = .status := by decide

theorem test_decode_readId : decode 0x4000 = .readId := by decide

theorem test_decode_reset : decode 0x6000 = .reset ∧ decode 0x7ABC = .reset := by decide

theorem test_decode_writeConfig :
    decode 0x8058 = .writeConfig 5 4 0 ∧ decode 0x9FD8 = .writeConfig 5 4 0 ∧ decode 0x807F = .writeConfig 7 7 1 ∧
      decode 0x8011 = .writeConfig 1 0 1 := by decide

theorem test_decode_writeCtrlMeas :
    decode 0xA027 = .writeCtrlMeas 1 1 3 ∧ decode 0xBF27 = .writeCtrlMeas 1 1 3 ∧
      decode 0xA070 = .writeCtrlMeas 3 4 0 := by decide

theorem test_decode_writeCtrlHum : decode 0xC001 = .writeCtrlHum 1 ∧ decode 0xDFF9 = .writeCtrlHum 1 := by decide

theorem test_decode_readStatus : decode 0xE000 = .readStatus ∧ decode 0xFFFF = .readStatus := by decide

theorem test_encode_words :
    encode (.writeConfig 2 3 0) = 0x8026 ∧ encode (.writeCtrlMeas 4 1 1) = 0xA085 ∧
      encode (.construct 0x77) = 0x0077 := by decide

theorem test_decodeTableWord :
    decodeTableWord 16 0xA0B7 = some (.writeCtrlMeas 5 5 3) ∧ decodeTableWord 24 0xA0B7 = none ∧
      decodeBits 17 0 = .error .longerThanAWord := ⟨by decide, by decide, rfl⟩

theorem test_assemble :
    assemble (.writeCtrlMeas (.sym .x16) (.num 5) (.sym .normal)) = some (.writeCtrlMeas 5 5 3) ∧
      assemble (.construct 0x80) = none ∧ assemble (.writeConfig (.num 8) (.sym .off) 0) = none := by decide

/-! ### WellFormed: an ill-formed term for each check -/

/-- Column "ignored bits" of R72 with `ADDR_W` = 7: the bits used are 15:13 and 6:0. -/
theorem test_address_bits : Format.a.usedBits = 0xE07F ∧ params.wellFormed = true := by decide

theorem test_canonical_refuses :
    Format.n.canonical 0x3FFF = false ∧ Format.a.canonical 0x1FF7 = false ∧ Format.c.canonical 0x9FD8 = false ∧
      Format.m.canonical 0xBF27 = false ∧ Format.h.canonical 0xDFF9 = false := by decide

theorem test_canonical_accepts :
    Format.n.canonical 0x2000 = true ∧ Format.a.canonical 0x0077 = true ∧ Format.c.canonical 0x807F = true ∧
      Format.m.canonical 0xA0FF = true ∧ Format.h.canonical 0xC007 = true := by decide

theorem test_inEnumerations_refuses :
    (Instr.writeConfig 0 5 0).inEnumerations = false ∧ (Instr.writeCtrlMeas 6 0 0).inEnumerations = false ∧
      (Instr.writeCtrlMeas 0 7 0).inEnumerations = false ∧ (Instr.writeCtrlMeas 0 0 2).inEnumerations = false ∧
      (Instr.writeCtrlHum 6).inEnumerations = false := by decide

theorem test_inEnumerations_accepts :
    (Instr.writeConfig 7 4 1).inEnumerations = true ∧ (Instr.writeCtrlMeas 5 5 3).inEnumerations = true ∧
      (Instr.writeCtrlHum 5).inEnumerations = true := by decide

theorem test_params_refused :
    ({ params with addrW := 14 } : Config.Params).wellFormed = false ∧
      ({ params with calOrder := [.block88, .blockA1] } : Config.Params).wellFormed = false ∧
      ({ params with calOrder := [.block88, .blockA1, .blockA1] } : Config.Params).wellFormed = false ∧
      ({ params with calOrder := [.block88, .block88, .blockE1] } : Config.Params).wellFormed = false ∧
      ({ params with calOrder := [.blockA1, .blockA1, .blockE1] } : Config.Params).wellFormed = false ∧
      ({ params with stMeasuringBit := 8 } : Config.Params).wellFormed = false ∧
      ({ params with stImUpdateBit := 8 } : Config.Params).wellFormed = false := by decide

/-! ### CONSTRUCT: section 2 and the lifecycle table of section 9 -/

theorem test_construct_fixture_a :
    (nextOf (exec (.construct 0x76) (fresh answersA))).map (fun t => (t.lifecycle, t.responses, t.answers)) =
      some (.ready 0x76 calA, [.ok], []) := by decide

theorem test_construct_second_read_fails :
    seen (.construct 0x76) (fresh [.ok a24, .fail, .ok a8]) =
      some ⟨.unconstructed, [.busIoError 1], [(0x76, [0x88], .data a24), (0x76, [0xA1], .failed)]⟩ := by decide

/-- CV3: the middle byte's low nibble goes to H4, its high nibble to H5. -/
theorem test_unpack_nibbles :
    let cal := calUnpack (block [] 24) (block [] 1) (block [0, 0, 0, 0x12, 0xA7, 0x34] 8)
    cal.H4 = 295 ∧ cal.H5 = 842 := by decide

/-- Fixture B: signs and extremes, with both readings of H4 and H5. -/
theorem test_unpack_fixture_b :
    let cal := calUnpack (block ([0xFF, 0xFF, 0xFF, 0xFF, 0x00, 0x80, 0x00, 0x80, 0xFF, 0x7F, 0x00, 0x00] ++
      [0x01, 0x00, 0xFE, 0xFF, 0x80, 0x00, 0x00, 0xFF, 0x34, 0x12, 0xCD, 0xAB]) 24) (block [0xFF] 1)
      (block [0xFF, 0xFF, 0xFF, 0xFF, 0xFF, 0xFF, 0x80, 0x5A] 8)
    cal.tCoeffs = ⟨65535, -1, -32768⟩ ∧ cal.pCoeffs = ⟨32768, 32767, 0, 1, -2, 128, -256, 4660, -21555⟩ ∧
      cal.hCoeffs false = ⟨255, -1, 255, 4095, 4095, -128⟩ ∧ (cal.hCoeffs true).h4 = -1 := by decide

/-! ### STATUS: sections 3 to 7 -/

/-- PR1's second command, R186: 25.08 degrees, 1006.53 hPa, 56.11 percent. -/
theorem test_status_pr1 :
    (nextOf (exec .status (ready [.ok burst]))).map (fun t => (t.lifecycle, t.work, t.responses)) =
      some (.ready 0x76 calA, none, [.meas { temperature := 0x4039147AE147AE14, pressure := .value 0x408F7442A3D70A3D,
                                             humidity := 0x404C0E6000000000 }]) := by decide

/-- X1 and X8: refused without a Device; the failed burst. -/
theorem test_status_refused_and_failed :
    seen .status (fresh []) = some ⟨.unconstructed, [.refused], []⟩ ∧
      seen .status (ready [.fail]) = some ⟨.ready 0x76 calA, [.busIoError 0], [(0x76, [0xF7], .failed)]⟩ := by decide

/-- RD4 and RD5: the overlap of the default shift, and the alternative shift. -/
theorem test_raw_overlap :
    rawDecode 2 (block [0x00, 0x01, 0xC4, 0x80, 0x00, 0x00, 0x80, 0x00] 8) = ⟨49, 524288, 32768⟩ ∧
      rawDecode 2 (block [0x12, 0x34, 0x5F, 0xAB, 0xCD, 0xEF, 0x9A, 0xBC] 8) = ⟨74583, 703739, 39612⟩ ∧
      rawDecode 4 (block [0x12, 0x34, 0x5F, 0xAB, 0xCD, 0xEF, 0x9A, 0xBC] 8) = ⟨74565, 703710, 39612⟩ := by decide

/-- T1, T4, T5, T6, T7. -/
theorem test_temperature_vectors :
    compT .exact ⟨27504, 26435, -1000⟩ 519888 = ⟨128422, 2508⟩ ∧ compT .exact ⟨65535, -32768, 32767⟩ 0 = ⟨4194144, 81917⟩ ∧
      compT .exact ⟨0, -32768, -32768⟩ 1048575 = ⟨-4194224, -81918⟩ ∧ compT .exact ⟨1, 1, 0⟩ 8 = ⟨-1, 0⟩ ∧
      compT .exact ⟨1, 26624, 0⟩ 0 = ⟨-26, -1⟩ := by decide

/-- P1, P2, P4, P10 with both divisions. -/
theorem test_pressure_vectors :
    compP .exact .trunc pA 415148 128422 = some 25767233 ∧ compP .exact .trunc { pA with p1 := 0 } 415148 128422 = none ∧
      compP .exact .trunc pA 1048575 128422 = some (-1697504) ∧
      compP .exact .trunc pA 1048454 128422 = some (-1692358) ∧
      compP .exact .floor pA 1048454 128422 = some (-1692359) := by decide

/-- P11 to P14: around the zero denominator. -/
theorem test_pressure_sentinel_vectors :
    compP .exact .trunc { pA with p2 := 0, p3 := -32768 } 415148 1176576 = none ∧
      compP .exact .trunc { pA with p1 := 1, p2 := -1, p3 := -32768 } 415148 1176576 =
        some 158979897526099003448000 ∧
      compP .exact .trunc { pA with p1 := 1, p2 := 1, p3 := -32768 } 415148 1176576 = none ∧
      compP .exact .trunc { pA with p1 := 2, p2 := 1, p3 := -32768 } 415148 1176576 =
        some 158979927208900997048000 := by decide

/-- HV1, HV2, HV3, HV6 and HV9. -/
theorem test_humidity_vectors :
    compH .exact hA 30000 128422 = 57459 ∧ compH .exact hA 0 128422 = 0 ∧ compH .exact hA 65535 128422 = 102400 ∧
      compH .exact ⟨255, -1, 255, 4095, 4095, -128⟩ 30000 (-50000) = 3516 ∧
      compH .exact ⟨255, -1, 255, -1, -1, -128⟩ 30000 (-50000) = 0 := by decide

/-- Section 7's conversions. -/
theorem test_conversion_vectors :
    convertTemperature .tiesToEven (-1) = 0xBF847AE147AE147B ∧ convertTemperature .tiesToEven 0 = 0 ∧
      convertPressure .tiesToEven 4294967295 = 0x41047AE14799999A ∧
      convertPressure .tiesToEven 9007199254740993 = 0x42547AE147AE147B ∧
      convertHumidity .tiesToEven 102399 = 0x4058FFF000000000 := by decide

/-- P12's rounded conversion. -/
theorem test_i2f_rounds : i2f .tiesToEven 158979897526099003448000 = 0x44C0D528A44C31EF := by decide

/-- The column `fits64` of section 5: P1 and P2 yes, P6 and P8 no. -/
theorem test_envelope :
    presFits64 .trunc pA 415148 128422 = true ∧ presFits64 .trunc { pA with p1 := 0 } 415148 128422 = true ∧
      presFits64 .trunc pA 415148 (-4194224) = false ∧
      presFits64 .trunc { pA with p1 := 65535, p3 := 32767 } 415148 4194144 = false := by decide

/-! ### The one-transaction commands: sections 8 and 9 -/

theorem test_readId :
    seen .readId (ready [.ok [0x60]]) = some ⟨.ready 0x76 calA, [.id 0x60], [(0x76, [0xD0], .data [0x60])]⟩ := by decide

theorem test_readStatus :
    seen .readStatus (ready [.ok [0x08]]) =
        some ⟨.ready 0x76 calA, [.status true false], [(0x76, [0xF3], .data [0x08])]⟩ ∧
      seen .readStatus (ready [.ok [0xF6]]) =
        some ⟨.ready 0x76 calA, [.status false false], [(0x76, [0xF3], .data [0xF6])]⟩ := by decide

theorem test_reset : seen .reset (ready [.ok []]) = some ⟨.ready 0x76 calA, [.ok], [(0x76, [0xE0, 0xB6], .done)]⟩ := by
  decide

theorem test_writeConfig :
    seen (.writeConfig 5 4 0) (ready [.ok []]) = some ⟨.ready 0x76 calA, [.ok], [(0x76, [0xF5, 0xB0], .done)]⟩ ∧
      seen (.writeConfig 7 7 1) (ready [.ok []]) = some ⟨.ready 0x76 calA, [.ok], [(0x76, [0xF5, 0xFD], .done)]⟩ := by
  decide

theorem test_writeCtrlMeas :
    seen (.writeCtrlMeas 1 1 3) (ready [.ok []]) = some ⟨.ready 0x76 calA, [.ok], [(0x76, [0xF4, 0x87], .done)]⟩ ∧
      seen (.writeCtrlMeas 4 1 1) (ready [.ok []]) =
        some ⟨.ready 0x76 calA, [.ok], [(0x76, [0xF4, 0x05], .done)]⟩ := by decide

/-- The alternative `T_OS_SHIFT` = 5 of section 8. -/
theorem test_ctrlMeas_other_shift : ctrlMeasPayload 5 2 2 1 = 0x49 ∧ ctrlMeasPayload 5 5 5 3 = 0xB7 := by decide

theorem test_writeCtrlHum :
    seen (.writeCtrlHum 5) (ready [.ok []]) = some ⟨.ready 0x76 calA, [.ok], [(0x76, [0xF2, 0x05], .done)]⟩ ∧
      seen (.writeCtrlHum 5) (fresh []) = some ⟨.unconstructed, [.refused], []⟩ := by decide

/-- The calibration flag and the response's bits (R27, R78). -/
theorem test_flags :
    (ready []).calValid = true ∧ (fresh []).calValid = false ∧ Pressure.invalid.flag = true ∧
      (runStages params { calA with P1 := 0 } (block burst 8)).pInvalid = true := by decide

/-! ### The step -/

/-- A command word as the first after reset runs, here CONSTRUCT with a sensor nothing is fixed of. -/
theorem test_step_first_word : (nextOf (step (State.reset.withFetchWord 16 0x0076))).isSome = true := by decide

theorem test_step_hardware_reset :
    (nextOf (step { ready [] with inputs := [.hardwareReset] })).map (fun t => (t.lifecycle, t.busTrace, t.responses)) =
      some (.unconstructed, [], []) := by decide

/-! ### Witnesses: for each statement with hypotheses, a concrete input that meets them -/

theorem witness_DecodeEncodeAgree :
    (decode 0x8058).format.canonical 0x8058 = true ∧ (decode 0xA0FF).format.canonical 0xA0FF = true ∧
      (decode 0x007F).format.canonical 0x007F = true ∧ (decode 0xC007).format.canonical 0xC007 = true ∧
      (decode 0xE000).format.canonical 0xE000 = true := by decide

theorem witness_IgnoredBitsDoNotMatter :
    ((0x8058 : CmdWord) &&& (decode 0x8058).format.usedBits = 0x9FD8 &&& (decode 0x8058).format.usedBits) ∧
      ((0x2000 : CmdWord) &&& (decode 0x2000).format.usedBits = 0x3FFF &&& (decode 0x2000).format.usedBits) := by decide

theorem witness_StepRunsTheDecodedCommand :
    ({ ready [] with inputs := [.command 0x4000] } : State).inputs = .command 0x4000 :: [] ∧
      State.reset.inputs = [] := by decide

theorem witness_HardwareResetForgetsTheDevice :
    ({ ready [] with inputs := [.hardwareReset, .command 0] } : State).inputs = .hardwareReset :: [.command 0] := by
  decide

theorem witness_ConstructCommitsTheDevice :
    (fresh answersA).lifecycle = .unconstructed ∧ (fresh answersA).busSucceeds 3 = true := by decide

theorem witness_ConstructFailureLeavesNoDevice :
    (fresh [.fail, .never]).lifecycle = .unconstructed ∧ hangs 3 (fresh [.fail, .never]).answers = false ∧
      (fresh [.fail, .never]).firstFailure 3 = some 0 ∧
      hangs 3 (fresh [.ok a24, .ok [0x4B], .fail]).answers = false ∧
      (fresh [.ok a24, .ok [0x4B], .fail]).firstFailure 3 = some 2 := by decide

theorem witness_ConstructIsRefusedInReady : (ready []).lifecycle = .ready 0x76 calA := by decide

theorem witness_UnpackedCoefficientValues :
    (∀ i : Fin 8, i ≠ 7 → block [0x6F, 0x01, 0x00, 0x13, 0x28, 0x03, 0x1E, 0xFF] 8 i = block a8 8 i) ∧
      block [0x6F, 0x01, 0x00, 0x13, 0x28, 0x03, 0x1E, 0xFF] 8 7 ≠ block a8 8 7 := by decide

theorem witness_StatusDeliversTheMeasurement :
    (ready [.ok burst]).lifecycle = .ready 0x76 calA ∧ (ready [.ok burst]).busSucceeds 1 = true := by decide

theorem witness_StatusRefusalAndFailure :
    (fresh []).lifecycle = .unconstructed ∧ (ready [.fail]).lifecycle = .ready 0x76 calA ∧
      hangs 1 (ready [.fail]).answers = false ∧ (ready [.fail]).firstFailure 1 = some 0 := by decide

/-- T1 and T9: raw values that differ in their low three bits. -/
theorem witness_TemperatureRanges : (519895 : BitVec 20) ≠ 519888 ∧ (519895 : BitVec 20) >>> 3 = (519888 : BitVec 20) >>> 3 := by
  decide

/-- P1 = 0; `d2` = 0, 2^32 and 2^33 of P11, P13 and P14; a quotient. -/
theorem witness_PressureSentinelExactly :
    ({ calA with P1 := 0 } : Calibration).P1 = 0 ∧
      presD2 ({ calA with P2 := 0, P3 := -32768 } : Calibration).pCoeffs (presV 1176576) = 0 ∧
      presD2 ({ calA with P1 := 1, P2 := 1, P3 := -32768 } : Calibration).pCoeffs (presV 1176576) = 2 ^ 32 ∧
      presD2 ({ calA with P1 := 2, P2 := 1, P3 := -32768 } : Calibration).pCoeffs (presV 1176576) = 2 ^ 33 ∧
      presD2 ({ calA with P1 := 1, P2 := -1, P3 := -32768 } : Calibration).pCoeffs (presV 1176576) = -2 ^ 32 ∧
      params.compP params.arith params.divMode calA.pCoeffs (415148 : BitVec 20).toNat 128422 = some 25767233 := by decide

/-- Section 6's clamp boundaries: `w` = -48060, 0, 48060, 419394708, 419441817. -/
theorem witness_HumidityClampAndShift :
    [20124, 20125, 20127, 37836, 37837].map (fun h => humW hA h (humX 128422)) =
      [-48060, 0, 48060, 419394708, 419441817] := by decide

theorem witness_IntegerToFloatIsNearest :
    |(-2 ^ 53 : Int)| ≤ 2 ^ 53 ∧ ¬ |(2 ^ 53 + 1 : Int)| ≤ 2 ^ 53 ∧ |(2 ^ 1022 : Int)| < 2 ^ 1023 := by
  refine ⟨by decide, by decide, ?_⟩
  rw [abs_of_nonneg (by positivity)]
  exact pow_lt_pow_right₀ (by norm_num) (by norm_num)

theorem witness_TemperatureOutputIsNearest : (-81918 : Int) ≤ -81918 ∧ (-81918 : Int) ≤ 81917 := by decide

theorem witness_PressureOutputIsNearest :
    |(2 ^ 53 : Int)| < 2 ^ 99 ∧ |(2 ^ 53 : Int)| ≤ 2 ^ 53 ∧ |(1 - 2 ^ 99 : Int)| < 2 ^ 99 := by decide

theorem witness_HumidityOutputIsExact : (0 : Int) ≤ 102400 ∧ (102400 : Int) ≤ 102400 := by decide

/-- PR1's measurement has a pressure value and a `P_q8`. -/
theorem witness_NoSpecialFloatsInAMeasurement :
    (convert params.f64Round (runStages params calA (block burst 8))).pressure = .value 0x408F7442A3D70A3D := by decide

theorem witness_PressureFitsNinetyNineBits : (runStages params calA (block burst 8)).pQ8 = some 25767233 := by decide

/-- Inside the envelope: a quotient in either mode, and the sentinel. -/
theorem witness_SixtyFourBitPressureIsExactInEnvelope :
    presFits64 .trunc calA.pCoeffs (415148 : BitVec 20).toNat 128422 = true ∧
      presFits64 .floor calA.pCoeffs (1048454 : BitVec 20).toNat 128422 = true ∧
      presFits64 .trunc ({ calA with P1 := 0 } : Calibration).pCoeffs (415148 : BitVec 20).toNat 128422 = true := by decide

theorem witness_SixtyFourBitHumidityIsExactInEnvelope :
    humFits64 (calA.hCoeffs false) (65535 : BitVec 16).toNat 128422 = true ∧
      humFits64 (calA.hCoeffs true) (0 : BitVec 16).toNat 128422 = true := by decide

/-- Two inputs that agree in what temperature and pressure read and differ in what humidity reads, and the
other way round. -/
theorem witness_EachStageReadsItsOwnInputs :
    let cP : Calibration := { calA with H1 := 0 }
    let cH : Calibration := { calA with P1 := 0 }
    cP ≠ calA ∧ cP.T1 = calA.T1 ∧ cP.T2 = calA.T2 ∧ cP.T3 = calA.T3 ∧ cP.pCoeffs = calA.pCoeffs ∧
      cH ≠ calA ∧ cH.T1 = calA.T1 ∧ cH.T2 = calA.T2 ∧ cH.T3 = calA.T3 ∧
      cH.hCoeffs params.h45Signed = calA.hCoeffs params.h45Signed ∧
      (∀ i : Fin 8, i.val < 6 → block [0x65, 0x5A, 0x30, 0x7E, 0xED, 0x00, 0xFF, 0xFF] 8 i = block burst 8 i) ∧
      (∀ i : Fin 8, 3 ≤ i.val → block [0, 0, 0, 0x7E, 0xED, 0x00, 0x75, 0x30] 8 i = block burst 8 i) := by decide

/-- Two engines at different addresses, with different histories, whose bursts deliver the same bytes. -/
theorem witness_StatusSeesOnlyCoefficientsAndBurst :
    let s1 := ready [.ok burst]
    let s2 : State := { ready [.ok burst, .fail] with lifecycle := .ready 0x77 calA, responses := [.refused] }
    s1.lifecycle = .ready 0x76 calA ∧ s2.lifecycle = .ready 0x77 calA ∧ s1.busSucceeds 1 = true ∧
      s2.busSucceeds 1 = true ∧ ∀ i < 8, s1.answerByte 0 i = s2.answerByte 0 i := by decide

/-- The four cases of `IsOneTransaction`, for ReadIdReturnsTheByte, ReadStatusReturnsTwoBits,
ResetWritesTheMagicByte, WriteConfigWritesItsPayload, WriteCtrlMeasWritesItsPayload and
WriteCtrlHumWritesItsPayload. -/
theorem witness_IsOneTransaction :
    (fresh []).lifecycle = .unconstructed ∧
      (ready [.never]).lifecycle = .ready 0x76 calA ∧ hangs 1 (ready [.never]).answers = true ∧
      (ready [.fail]).lifecycle = .ready 0x76 calA ∧ hangs 1 (ready [.fail]).answers = false ∧
      (ready [.fail]).firstFailure 1 = some 0 ∧
      (ready [.ok [0x60]]).lifecycle = .ready 0x76 calA ∧ (ready [.ok [0x60]]).busSucceeds 1 = true := by decide

theorem witness_OneTransactionCommandsKeepTheEngine :
    (∀ address, Instr.readId ≠ .construct address) ∧ Instr.readId ≠ .status ∧
      (nextOf (exec .readId (ready [.ok [0x60]]))).isSome = true ∧
      (nextOf (exec .readId (ready [.fail]))).isSome = true := by decide

theorem witness_RefusedExactlyWhenNotAccepted :
    deviceOf (.construct 0) (ready []).lifecycle = none ∧ deviceOf .reset (fresh []).lifecycle = none ∧
      (nextOf (exec .reset (fresh []))).map State.responses = some ((fresh []).responses ++ [.refused]) := by decide

theorem witness_BusErrorLeavesNoTrace :
    let s := fresh [.ok a24, .ok [0x4B], .fail]
    deviceOf (.construct 0x76) s.lifecycle = some 0x76 ∧ hangs (transactionsOf (.construct 0x76)).length s.answers = false ∧
      s.firstFailure (transactionsOf (.construct 0x76)).length = some 2 ∧
      deviceOf .status (ready [.fail]).lifecycle = some 0x76 ∧
      hangs (transactionsOf .status).length (ready [.fail]).answers = false ∧
      (ready [.fail]).firstFailure (transactionsOf .status).length = some 0 := by decide

/-- A failed STATUS and then a READ_ID. -/
theorem witness_NoStickyError :
    let s := ready [.fail, .ok [0x60]]
    (nextOf (exec .status s)).map State.responses = some (s.responses ++ [.busIoError 0]) ∧
      (nextOf (exec .readId { s with answers := [.ok [0x60]], oracleIndex := 1 })).isSome = true ∧
      (nextOf (exec .status s)).map (fun t => (t.answers, t.oracleIndex)) = some ([.ok [0x60]], 1) := by decide

theorem witness_OnlyAHangStopsACommand :
    deviceOf (.construct 0x76) (fresh [.ok a24, .ok [0x4B], .never]).lifecycle = some 0x76 ∧
      hangs (transactionsOf (.construct 0x76)).length (fresh [.ok a24, .ok [0x4B], .never]).answers = true ∧
      NeverHangs (fresh answersA) ∧ isFault (exec .readId (ready [.never])) = true := by
  refine ⟨by decide, by decide, ?_, by decide⟩
  unfold NeverHangs
  decide

theorem witness_EveryCommandAnswersOnce :
    (nextOf (exec (.construct 0x76) (fresh answersA))).isSome = true ∧
      (nextOf (exec .status (ready [.ok burst]))).isSome = true := by decide

/-- Divisions with equal signs, with `n` = 0, and exact with unequal signs; and one where the modes differ. -/
theorem witness_ShiftAndDivisionRounding :
    ((2 : Int) ≠ 0 ∧ (7 : Int).sign = (2 : Int).sign) ∧ ((-2 : Int) ∣ 6) ∧
      idiv .trunc (-7) 2 = -3 ∧ idiv .floor (-7) 2 = -4 := by decide

/-- What a CONSTRUCT with fixture A leaves is a state with the invariant. -/
theorem witness_CalibrationIsAlwaysRead :
    let s : State := { ready [] with
      inputs := [.command 0x4000]
      busTrace := [readRecord 0x76 0x88 (block a24 24), readRecord 0x76 0xA1 (block [0x4B] 1),
        readRecord 0x76 0xE1 (block a8 8)] }
    CalibrationWasRead s ∧ (nextOf (step { s with answers := [.ok [0x60]] })).isSome = true := by
  refine ⟨?_, by decide⟩
  intro dev cal h
  simp only [ready, Lifecycle.ready.injEq] at h
  obtain ⟨rfl, rfl⟩ := h
  exact ⟨[], [], block a24 24, block [0x4B] 1, block a8 8, rfl, by decide, by simp⟩

theorem witness_BusStaysInTheRegisterMap :
    BusIsLegal { ready [.ok []] with
        inputs := [.command 0x807F]
        busTrace := [{ dev := 0x76, txn := .write 0xF5 0xFD, reply := .done }, readRecord 0x76 0xF7 (block burst 8)] } ∧
      (nextOf (step { ready [.ok []] with inputs := [.command 0x807F] })).isSome = true := by
  refine ⟨?_, by decide⟩
  unfold BusIsLegal
  decide

theorem witness_WorkingRegistersStayEmpty :
    WorkIsEmpty { ready [.ok burst] with inputs := [.command 0x2000] } ∧
      (nextOf (step { ready [.ok burst] with inputs := [.command 0x2000] })).isSome = true := ⟨rfl, by decide⟩

/-- Out of `READY` by hardware reset; into it by CONSTRUCT. -/
theorem witness_OnlyConstructAndResetChangeTheDevice :
    ({ ready [] with inputs := [.hardwareReset] } : State).lifecycle = .ready 0x76 calA ∧
      (nextOf (step { ready [] with inputs := [.hardwareReset] })).map State.lifecycle = some .unconstructed ∧
      ({ fresh answersA with inputs := [.command 0x0076] } : State).lifecycle = .unconstructed ∧
      (nextOf (step { fresh answersA with inputs := [.command 0x0076] })).map State.lifecycle =
        some (.ready 0x76 calA) := by decide

theorem witness_AtMostThreeTransactionsInOrder :
    (nextOf (exec (.construct 0x76) (fresh answersA))).map (fun t => t.busTrace.length) = some 3 ∧
      (nextOf (exec .status (fresh []))).map State.responses = some ((fresh []).responses ++ [.refused]) := by decide

end Sys2Proof.Tests
end

section
/-! PROOFS. The integer notation of 00_scope.md section 5: shifts and the two division modes (R11, R14). -/

namespace Sys2Proof.Machine

/-- The right shift is the floor of the rational quotient (R11). -/
theorem shr_eq_floor (v : Int) (n : Nat) : shr v n = ⌊(v : ℚ) / 2 ^ n⌋ := by
  have h := Rat.floor_intCast_div_natCast v (2 ^ n)
  push_cast at h
  rw [shr_eq, h]

@[simp] theorem idiv_trunc (n d : Int) : idiv .trunc n d = n.tdiv d := rfl

@[simp] theorem idiv_floor (n d : Int) : idiv .floor n d = n.fdiv d := rfl

/-- Truncating division divides the magnitudes and multiplies the signs (R14). -/
theorem idiv_trunc_eq_sign_mul (n d : Int) :
    idiv .trunc n d = n.sign * d.sign * ((n.natAbs / d.natAbs : Nat) : Int) := by
  have hnat (a b : Nat) : (a : Int).tdiv b = (a : Int).sign * (b : Int).sign * ((a / b : Nat) : Int) := by
    rw [Int.ofNat_tdiv]
    rcases a.eq_zero_or_pos with rfl | ha
    · simp
    rcases b.eq_zero_or_pos with rfl | hb
    · simp
    rw [Int.sign_eq_one_of_pos (by omega), Int.sign_eq_one_of_pos (by omega), one_mul, one_mul]
  rw [idiv_trunc]
  obtain ⟨a, rfl | rfl⟩ := n.eq_nat_or_neg <;> obtain ⟨b, rfl | rfl⟩ := d.eq_nat_or_neg <;>
    simp only [Int.neg_tdiv, Int.tdiv_neg, Int.sign_neg, Int.natAbs_neg, Int.natAbs_natCast, hnat, neg_mul, mul_neg]

/-- Flooring division is the floor of the rational quotient (R14); a negative divisor is made positive by
negating both operands. -/
theorem idiv_floor_eq_floor (n d : Int) : idiv .floor n d = ⌊(n : ℚ) / d⌋ := by
  have hnat (m : Int) (k : Nat) : m.fdiv k = ⌊(m : ℚ) / (k : Int)⌋ := by
    rw [Int.fdiv_eq_ediv_of_nonneg m (Int.natCast_nonneg k), Int.cast_natCast, Rat.floor_intCast_div_natCast]
  rw [idiv_floor]
  obtain ⟨k, rfl | rfl⟩ := d.eq_nat_or_neg
  · exact hnat n k
  · rw [← Int.neg_fdiv_neg, neg_neg, hnat, Int.cast_neg, Int.cast_neg, neg_div, div_neg]

/-- Both modes are exact on a multiple of the divisor. -/
theorem idiv_trunc_eq_floor_of_dvd {n d : Int} (h : d ∣ n) : idiv .trunc n d = idiv .floor n d := by
  simp [Int.tdiv_eq_fdiv, h]

/-- Where the signs agree the quotient is not negative, and rounding toward zero rounds down. -/
theorem idiv_trunc_eq_floor_of_sign_eq {n d : Int} (h : n.sign = d.sign) :
    idiv .trunc n d = idiv .floor n d := by
  have hnonneg {a b : Int} (ha : 0 ≤ a) (hb : 0 ≤ b) : a.tdiv b = a.fdiv b := by
    rw [Int.tdiv_eq_ediv_of_nonneg ha, Int.fdiv_eq_ediv_of_nonneg a hb]
  rw [idiv_trunc, idiv_floor]
  rcases le_or_gt 0 n with hn | hn
  · exact hnonneg hn (Int.sign_nonneg_iff.mp (h ▸ Int.sign_nonneg_iff.mpr hn))
  · have hd : d < 0 := Int.sign_eq_neg_one_iff_neg.mp (h ▸ Int.sign_eq_neg_one_of_neg hn)
    rw [← Int.neg_tdiv_neg, ← Int.neg_fdiv_neg]
    exact hnonneg (by omega) (by omega)

/-- Settles O44: each clause is a lemma above; `n = 0` is a multiple of every divisor. -/
theorem shiftAndDivisionRounding : Obligations.ShiftAndDivisionRounding := by
  unfold Obligations.ShiftAndDivisionRounding
  refine ⟨fun v n => ⟨shr_eq_floor v n, shl_eq v n⟩, fun n d _ =>
    ⟨idiv_trunc_eq_sign_mul n d, idiv_floor_eq_floor n d, ?_⟩⟩
  rintro (hsign | rfl | hdvd)
  · exact idiv_trunc_eq_floor_of_sign_eq hsign
  · exact idiv_trunc_eq_floor_of_dvd (dvd_zero d)
  · exact idiv_trunc_eq_floor_of_dvd hdvd

end Sys2Proof.Machine
end

section
/-! PROOFS. What a command and a step can do, each said once, and the register map (R50, R51, R54). -/

namespace Sys2Proof.Machine

/-! ### The payloads bit by bit (R195, R199, R202) -/

theorem configPayload_eq (standby filter : BitVec 3) (spi3w : BitVec 1) :
    configPayload standby filter spi3w = standby ++ filter ++ 0#1 ++ spi3w := by
  revert standby filter spi3w
  decide

theorem ctrlMeasPayload_eq (tempOs pressOs : BitVec 3) (mode : BitVec 2) :
    ctrlMeasPayload params.tOsShift tempOs pressOs mode = tempOs.extractLsb' 0 1 ++ 0#2 ++ pressOs ++ mode := by
  revert tempOs pressOs mode
  decide

theorem ctrlHumPayload_eq (os : BitVec 3) : ctrlHumPayload os = 0#5 ++ os := by
  revert os
  decide

/-- Bit 1 of a `config` payload is always zero (R29). -/
@[simp] theorem configPayload_getElem_one (standby filter : BitVec 3) (spi3w : BitVec 1) :
    (configPayload standby filter spi3w)[1] = false := by
  revert standby filter spi3w
  decide

/-- Bits 7:3 of a `ctrl_hum` payload are always zero (R29). -/
theorem ctrlHumPayload_lt (os : BitVec 3) : (ctrlHumPayload os).toNat < 8 := by
  have hos := os.isLt
  simp only [ctrlHumPayload, low8, BitVec.toNat_ofNat]
  omega

/-! ### What a command can do -/

/-- How a command may complete once its transactions have succeeded: it gives one response of R78's kind and
touches neither the bus nor what the host and the sensor still have to say. -/
structure IsCompletion (i : Instr) (complete : (Nat → Nat → Byte) → State → State) : Prop where
  busTrace (bytes : Nat → Nat → Byte) (s : State) : (complete bytes s).busTrace = s.busTrace
  answers (bytes : Nat → Nat → Byte) (s : State) : (complete bytes s).answers = s.answers
  oracleIndex (bytes : Nat → Nat → Byte) (s : State) : (complete bytes s).oracleIndex = s.oracleIndex
  inputs (bytes : Nat → Nat → Byte) (s : State) : (complete bytes s).inputs = s.inputs
  responses (bytes : Nat → Nat → Byte) (s : State) :
    ∃ r, completesWith i r = true ∧ (complete bytes s).responses = s.responses ++ [r]

/-- Giving a response of the command's kind is a completion. -/
theorem isCompletion_respond {i : Instr} {answer : (Nat → Nat → Byte) → Response}
    (h : ∀ bytes, completesWith i (answer bytes) = true) :
    IsCompletion i fun bytes s => s.respond (answer bytes) where
  busTrace _ _ := rfl
  answers _ _ := rfl
  oracleIndex _ _ := rfl
  inputs _ _ := rfl
  responses bytes _ := ⟨answer bytes, h bytes, rfl⟩

theorem isCompletion_commitDevice (address : DevAddr) : IsCompletion (.construct address) (commitDevice address) where
  busTrace _ _ := rfl
  answers _ _ := rfl
  oracleIndex _ _ := rfl
  inputs _ _ := rfl
  responses _ _ := ⟨.ok, rfl, rfl⟩

theorem isCompletion_deliver (cal : Calibration) :
    IsCompletion .status fun bytes s => (s.measure cal (takeBlock (bytes 0) 8)).deliver where
  busTrace _ _ := rfl
  answers _ _ := rfl
  oracleIndex _ _ := rfl
  inputs _ _ := rfl
  responses _ _ := ⟨_, rfl, rfl⟩

/-- The command does what R214's and R79's tables say: it is refused where it has no device to talk to, and
else runs its transactions there before it completes. -/
def FollowsItsTables (i : Instr) (s : State) : Prop :=
  (deviceOf i s.lifecycle = none ∧ exec i s = .next s.refuse) ∨
  ∃ dev complete, deviceOf i s.lifecycle = some dev ∧ IsCompletion i complete ∧
    exec i s = transact dev (transactionsOf i) complete s

/-- CONSTRUCT is refused in `READY` and runs its three reads in `UNCONSTRUCTED` (R100, R101). -/
theorem execConstruct_followsItsTables (address : DevAddr) (s : State) : FollowsItsTables (.construct address) s := by
  have hexec : exec (.construct address) s = execConstruct address s := rfl
  cases hl : s.lifecycle with
  | ready dev cal => exact .inl ⟨by rw [hl]; rfl, by simp [hexec, execConstruct, hl, constructAccepted]⟩
  | unconstructed =>
    refine .inr ⟨address, _, by rw [hl]; rfl, isCompletion_commitDevice address, ?_⟩
    simp only [hexec, execConstruct, hl, constructAccepted, if_true]
    rfl

/-- A command that needs a Device is refused in `UNCONSTRUCTED` and runs its transactions in `READY` (R187, R214). -/
theorem whenReady_followsItsTables {i : Instr} {s : State}
    {complete : Calibration → (Nat → Nat → Byte) → State → State}
    (hdev : deviceOf i s.lifecycle = s.lifecycle.device) (hcomplete : ∀ cal, IsCompletion i (complete cal))
    (hexec : exec i s = whenReady s fun dev cal => transact dev (transactionsOf i) (complete cal) s) :
    FollowsItsTables i s := by
  cases hl : s.lifecycle with
  | unconstructed => exact .inl ⟨by rw [hdev, hl]; rfl, hexec.trans (whenReady_unconstructed hl)⟩
  | ready dev cal =>
    exact .inr ⟨dev, _, by rw [hdev, hl]; rfl, hcomplete cal, hexec.trans (whenReady_ready hl)⟩

/-- A register write in R79's table is such a command. -/
theorem writeRegister_followsItsTables {i : Instr} {s : State} {reg : RegAddr} {payload : Byte}
    (hdev : deviceOf i s.lifecycle = s.lifecycle.device) (htxns : transactionsOf i = [.write reg payload])
    (hok : completesWith i .ok = true) (hexec : exec i s = writeRegister reg payload s) :
    FollowsItsTables i s :=
  whenReady_followsItsTables hdev (fun _ => isCompletion_respond (answer := fun _ => .ok) fun _ => hok)
    (by rw [hexec, htxns]; rfl)

/-- Everything a command can do (R224), together with `transact_cases`. -/
theorem exec_followsItsTables (i : Instr) (s : State) : FollowsItsTables i s := by
  cases i with
  | construct address => exact execConstruct_followsItsTables address s
  | status => exact whenReady_followsItsTables rfl isCompletion_deliver rfl
  | readId =>
    exact whenReady_followsItsTables rfl
      (fun _ => isCompletion_respond (answer := fun b => .id (b 0 0)) fun _ => rfl) rfl
  | readStatus =>
    exact whenReady_followsItsTables rfl
      (fun _ => isCompletion_respond (answer := fun b => statusResponse params (b 0 0)) fun _ => rfl) rfl
  | reset => exact writeRegister_followsItsTables rfl rfl rfl rfl
  | writeConfig standby filter spi3w =>
    exact writeRegister_followsItsTables rfl (by rw [transactionsOf, configPayload_eq]) rfl rfl
  | writeCtrlMeas tempOs pressOs mode =>
    exact writeRegister_followsItsTables rfl (by rw [transactionsOf, ctrlMeasPayload_eq]) rfl rfl
  | writeCtrlHum os => exact writeRegister_followsItsTables rfl (by rw [transactionsOf, ctrlHumPayload_eq]) rfl rfl

/-- A command that has a next state has put the first `k` of R79's transactions on the bus, and nothing else:
none where it is refused, those up to the failing one, or all of them. -/
theorem exec_busTrace {i : Instr} {s t : State} (h : exec i s = .next t) :
    ∃ dev k, t.busTrace = s.busTrace ++ s.records dev ((transactionsOf i).take k) := by
  obtain ⟨-, hrefuse⟩ | ⟨dev, complete, -, hcomplete, hrun⟩ := exec_followsItsTables i s
  · cases hrefuse.symm.trans h
    exact ⟨0, 0, by simp [State.records]⟩
  · rw [hrun] at h
    obtain ⟨-, hhang⟩ | ⟨k, -, -, hfail⟩ | ⟨-, hdone⟩ := transact_cases dev (transactionsOf i) complete s
    · cases hhang.symm.trans h
    · cases hfail.symm.trans h
      exact ⟨dev, k + 1, by simp⟩
    · cases hdone.symm.trans h
      exact ⟨dev, (transactionsOf i).length, by simp [hcomplete.busTrace]⟩

/-! ### What a step can do -/

/-- A step idles, runs the command on the port, or takes a hardware reset (R6, R230). -/
theorem step_cases {s t : State} (h : step s = .next t) :
    (s.inputs = [] ∧ t = s) ∨
    (∃ w rest, s.inputs = .command w :: rest ∧ exec (decode w) { s with inputs := rest } = .next t) ∨
    (∃ rest, s.inputs = .hardwareReset :: rest ∧ t = ({ s with inputs := rest } : State).hardwareReset) := by
  unfold step at h
  split at h
  case h_1 hin => exact .inl ⟨hin, by cases h; rfl⟩
  case h_2 input rest hin =>
    cases input with
    | command w => exact .inr (.inl ⟨w, rest, hin, h⟩)
    | hardwareReset => exact .inr (.inr ⟨rest, hin, by cases h; rfl⟩)

/-! ### The register map -/

/-- R79's table stays in the register map: the reads have R54's lengths, and the payloads R29's zero bits. -/
theorem transactionsOf_legal (i : Instr) : ∀ x ∈ transactionsOf i, x.legal = true := by
  cases i with
  | construct | status | readId | readStatus | reset | writeCtrlMeas => simp [transactionsOf, Txn.legal]
  | writeConfig standby filter spi3w =>
    rw [transactionsOf, ← configPayload_eq]
    simp [Txn.legal]
  | writeCtrlHum os =>
    rw [transactionsOf, ← ctrlHumPayload_eq]
    simp [Txn.legal, ctrlHumPayload_lt]

/-- A command keeps the bus in the register map. -/
theorem exec_busIsLegal {i : Instr} {s t : State} (hs : BusIsLegal s) (h : exec i s = .next t) : BusIsLegal t := by
  obtain ⟨dev, k, htrace⟩ := exec_busTrace h
  intro r hr
  rw [htrace, List.mem_append] at hr
  obtain hold | hnew := hr
  · exact hs r hold
  · exact transactionsOf_legal i r.txn (List.mem_of_mem_take (mem_records hnew).2)

/-- Settles O47: only a command adds to the bus record, and what it adds are transactions of R79's table. -/
theorem busStaysInTheRegisterMap : Obligations.BusStaysInTheRegisterMap := by
  unfold Obligations.BusStaysInTheRegisterMap
  intro s t hs hstep
  obtain ⟨-, rfl⟩ | ⟨w, rest, -, hexec⟩ | ⟨rest, -, rfl⟩ := step_cases hstep
  · exact hs
  · exact exec_busIsLegal (s := { s with inputs := rest }) hs hexec
  · exact hs

end Sys2Proof.Machine
end

section
/-! PROOFS. Decoder, encoder and opcode table: which bits of a command word count (R72, R73, R75). -/

namespace Sys2Proof

open Machine

/-! ### Fields of a word -/

theorem field_and (w m : CmdWord) (lo n : Nat) : field (w &&& m) lo n = field w lo n &&& field m lo n := by
  simp only [field, BitVec.extractLsb'_and]

/-- A field put back where it was read is the word with all other bits cleared. -/
theorem place_field (w : CmdWord) (lo n : Nat) : place (field w lo n) lo = w &&& place (BitVec.allOnes n) lo := by
  ext i hi
  by_cases hlo : i < lo
  · simp [place, field, hlo]
  · have hback : lo + (i - lo) = i := by omega
    simp [place, field, hlo, hback, BitVec.getLsbD_eq_getElem hi, Bool.and_comm]

/-- Every format uses the operation code `CMD[15:13]` (R72). -/
theorem field_usedBits (f : Format) : field f.usedBits 13 3 = BitVec.allOnes 3 := by
  cases f <;> rfl

theorem usedBits_and_opMask (f : Format) : f.usedBits &&& 0xE000 = 0xE000 := by
  cases f <;> rfl

/-! ### Encoding against decoding -/

theorem decode_encode (i : Instr) : decode (encode i) = i := by
  cases i with
  | construct address => revert address; decide
  | status | readId | reset | readStatus => rfl
  | writeConfig standby filter spi3w => revert standby filter spi3w; decide
  | writeCtrlMeas tempOs pressOs mode => revert tempOs pressOs mode; decide
  | writeCtrlHum os => revert os; decide

/-- The operation code the decoder reads, in its place in the word. -/
theorem and_opMask {w : CmdWord} {op : Fin 8} (h : (field w 13 3).toFin = op) :
    w &&& 0xE000 = place (BitVec.ofFin (w := 3) op) 13 := by
  rw [← h]
  exact (place_field w 13 3).symm

/-! The used bits of a word are the fields of its format's row in R72, each in its place. -/

theorem and_usedBits_a (w : CmdWord) :
    w &&& Format.a.usedBits = w &&& 0xE000 ||| place (field w 0 7) 0 := by
  simp only [place_field, ← BitVec.and_or_distrib_left]
  rfl

theorem and_usedBits_c (w : CmdWord) :
    w &&& Format.c.usedBits =
      w &&& 0xE000 ||| place (field w 4 3) 4 ||| place (field w 1 3) 1 ||| place (field w 0 1) 0 := by
  simp only [place_field, ← BitVec.and_or_distrib_left]
  rfl

theorem and_usedBits_m (w : CmdWord) :
    w &&& Format.m.usedBits =
      w &&& 0xE000 ||| place (field w 5 3) 5 ||| place (field w 2 3) 2 ||| place (field w 0 2) 0 := by
  simp only [place_field, ← BitVec.and_or_distrib_left]
  rfl

theorem and_usedBits_h (w : CmdWord) :
    w &&& Format.h.usedBits = w &&& 0xE000 ||| place (field w 0 3) 0 := by
  simp only [place_field, ← BitVec.and_or_distrib_left]
  rfl

/-- Decoding loses exactly the bits that the format ignores (R75). -/
theorem encode_decode (w : CmdWord) : encode (decode w) = w &&& (decode w).format.usedBits := by
  unfold decode
  split
  case h_1 h => rw [Instr.format, and_usedBits_a, and_opMask h]; rfl
  case h_2 h | h_3 h | h_4 h | h_8 h => exact (and_opMask h).symm
  case h_5 h => rw [Instr.format, and_usedBits_c, and_opMask h]; rfl
  case h_6 h => rw [Instr.format, and_usedBits_m, and_opMask h]; rfl
  case h_7 h => rw [Instr.format, and_usedBits_h, and_opMask h]; rfl

/-- The operation code alone settles the format (R73). -/
theorem format_decode_congr {w w' : CmdWord} (h : field w 13 3 = field w' 13 3) :
    (decode w).format = (decode w').format := by
  unfold decode
  rw [h]
  split <;> rfl

/-- Words that agree in the bits their format uses have the same operation code. -/
theorem field_op_congr {w w' : CmdWord} {f : Format} (h : w &&& f.usedBits = w' &&& f.usedBits) :
    field w 13 3 = field w' 13 3 := by
  have hfield : field (w &&& f.usedBits) 13 3 = field (w' &&& f.usedBits) 13 3 := by rw [h]
  simpa only [field_and, field_usedBits, BitVec.and_allOnes] using hfield

/-- Words that agree in the bits their format uses are the same command (R75). -/
theorem decode_congr {w w' : CmdWord}
    (h : w &&& (decode w).format.usedBits = w' &&& (decode w).format.usedBits) : decode w' = decode w := by
  have hformat : (decode w').format = (decode w).format := format_decode_congr (field_op_congr h).symm
  calc decode w' = decode (encode (decode w')) := (decode_encode _).symm
    _ = decode (encode (decode w)) := by rw [encode_decode w', encode_decode w, hformat, h]
    _ = decode w := decode_encode _

/-! ### The opcode table (R73) -/

theorem mask_of_mem_opcodeTable {r : OpcodeRow} (hr : r ∈ opcodeTable) : r.mask = 0xE000 := by
  revert r
  decide

theorem matchBits_nodup : (opcodeTable.map OpcodeRow.matchBits).Nodup := by decide

/-- No word selects two rows. -/
theorem eq_of_selects {r r' : OpcodeRow} {w : CmdWord} (hr : r ∈ opcodeTable) (hr' : r' ∈ opcodeTable)
    (h : w &&& r.mask = r.matchBits) (h' : w &&& r'.mask = r'.matchBits) : r = r' := by
  refine List.inj_on_of_nodup_map matchBits_nodup hr hr' ?_
  rw [← h, ← h', mask_of_mem_opcodeTable hr, mask_of_mem_opcodeTable hr']

theorem encodesItsRow (i : Instr) : Laws.EncodesItsRow.Statement i := by
  cases i with
  | construct address => exact Laws.EncodesItsRow.construct address
  | status => exact Laws.EncodesItsRow.status
  | readId => exact Laws.EncodesItsRow.readId
  | reset => exact Laws.EncodesItsRow.reset
  | writeConfig standby filter spi3w => exact Laws.EncodesItsRow.writeConfig standby filter spi3w
  | writeCtrlMeas tempOs pressOs mode => exact Laws.EncodesItsRow.writeCtrlMeas tempOs pressOs mode
  | writeCtrlHum os => exact Laws.EncodesItsRow.writeCtrlHum os
  | readStatus => exact Laws.EncodesItsRow.readStatus

/-- A word selects the row of the command it decodes to: that row selects the command's own word, and the two
words have the operation code in common. -/
theorem exists_selects_decode (w : CmdWord) :
    ∃ r ∈ opcodeTable, w &&& r.mask = r.matchBits ∧
      r.mnemonic = (decode w).mnemonic ∧ r.format = (decode w).format := by
  obtain ⟨r, hr, hmnemonic, hformat, hselects, -⟩ := encodesItsRow (decode w)
  refine ⟨r, hr, ?_, hmnemonic, hformat⟩
  have hmatch : encode (decode w) &&& r.mask = r.matchBits := eq_of_beq hselects
  rwa [encode_decode, mask_of_mem_opcodeTable hr, BitVec.and_assoc, usedBits_and_opMask,
    ← mask_of_mem_opcodeTable hr] at hmatch

/-- Settles O2: the rows are R73's by definition; the row of the decoded command is selected, and no other. -/
theorem everyWordSelectsExactlyOneRow : Obligations.EveryWordSelectsExactlyOneRow := by
  unfold Obligations.EveryWordSelectsExactlyOneRow
  refine ⟨rfl, fun w => ?_⟩
  obtain ⟨r, hr, hselects, hdecode⟩ := exists_selects_decode w
  exact ⟨r, ⟨hr, hselects, hdecode⟩, fun r' ⟨hr', hselects', _⟩ => eq_of_selects hr' hr hselects' hselects⟩

/-! ### Running a command word -/

/-- A step sees a command word only through what it decodes to (R6). -/
theorem step_command (s : State) (w : CmdWord) (rest : List HostInput) :
    step { s with inputs := .command w :: rest } = exec (decode w) { s with inputs := rest } := rfl

/-- Settles O3: the two words decode alike, and a step runs what a word decodes to. -/
theorem ignoredBitsDoNotMatter : Obligations.IgnoredBitsDoNotMatter := by
  unfold Obligations.IgnoredBitsDoNotMatter
  intro w w' h
  have hdecode : decode w' = decode w := decode_congr h
  exact ⟨hdecode, fun s rest => by rw [step_command, step_command, hdecode]⟩

end Sys2Proof
end

section
/-! PROOFS. How a command ends by R214's and R79's tables, and CONSTRUCT (R100 to R113). -/

namespace Sys2Proof.Machine

/-! ### A command that is refused, and one that fails -/

/-- A command with no device to talk to is refused (R214). -/
theorem exec_eq_afterRefusal {i : Instr} {s : State} (hdev : deviceOf i s.lifecycle = none) :
    exec i s = .next (afterRefusal s) := by
  obtain ⟨-, hrefuse⟩ | ⟨dev, complete, hsome, -, -⟩ := exec_followsItsTables i s
  · exact hrefuse
  · cases hdev.symm.trans hsome

/-- Ending at transaction `k` of a command leaves the state that R213 describes. -/
theorem issue_take_busIoError {i : Instr} {k : Nat} (hk : k < (transactionsOf i).length) (dev : DevAddr) (s : State) :
    (s.issue dev ((transactionsOf i).take (k + 1))).busIoError k = afterFailure i dev k s := by
  have hlen : ((transactionsOf i).take (k + 1)).length = k + 1 := List.length_take_of_le hk
  rw [State.issue, hlen]
  rfl

/-- An accepted command ends at its first failing transaction (R213). -/
theorem exec_eq_afterFailure {i : Instr} {s : State} {dev : DevAddr} {k : Nat}
    (hdev : deviceOf i s.lifecycle = some dev) (hhang : hangs (transactionsOf i).length s.answers = false)
    (hfail : s.firstFailure (transactionsOf i).length = some k) :
    exec i s = .next (afterFailure i dev k s) := by
  obtain ⟨hnone, -⟩ | ⟨dev', complete, hsome, -, hrun⟩ := exec_followsItsTables i s
  · cases hdev.symm.trans hnone
  · cases hdev.symm.trans hsome
    rw [hrun, transact_fails hhang hfail, issue_take_busIoError (firstFailure_some hfail).1]

/-- The observer has seen the command's transactions up to the failing one, and no later one (R213). -/
theorem afterFailure_new_txns (i : Instr) (dev : DevAddr) (k : Nat) (s : State) :
    ((afterFailure i dev k s).busTrace.drop s.busTrace.length).map BusRecord.txn = (transactionsOf i).take (k + 1) := by
  rw [afterFailure, List.drop_left, records_txn]

/-! ### CONSTRUCT -/

/-- In `UNCONSTRUCTED`, CONSTRUCT makes R79's three reads and commits (R100). -/
theorem exec_construct_of_unconstructed {s : State} (address : DevAddr) (hl : s.lifecycle = .unconstructed) :
    exec (.construct address) s =
      transact address (transactionsOf (.construct address)) (commitDevice address) s := by
  have haccepted : constructAccepted params.reconstruct s.lifecycle = true := by rw [hl]; rfl
  exact if_pos haccepted

/-- A read that succeeds is answered with its block (R42). -/
theorem reply_read {s : State} {j : Nat} (h : s.answerFails j = false) (reg : RegAddr) (len : Nat) :
    s.reply j (.read reg len) = .data (List.ofFn (takeBlock (s.answerByte j) len)) := by
  simp [State.reply, h]

/-- What the observer sees of three calibration reads that succeed, in R102's order. -/
theorem records_construct {s : State} (address : DevAddr) (h : ∀ j < 3, s.answerFails j = false) :
    s.records address (transactionsOf (.construct address)) =
      [readRecord address 0x88 (takeBlock (s.answerByte 0) 24),
        readRecord address 0xA1 (takeBlock (s.answerByte 1) 1),
        readRecord address 0xE1 (takeBlock (s.answerByte 2) 8)] := by
  simp [State.records, transactionsOf, readRecord, reply_read, h]

/-- In R102's order the three answers are the blocks of CalUnpack, one after the other. -/
theorem calFromReads_calOrder (bytes : Nat → Nat → Byte) :
    calFromReads params.calOrder bytes =
      calUnpack (takeBlock (bytes 0) 24) (takeBlock (bytes 1) 1) (takeBlock (bytes 2) 8) := rfl

/-- Settles O8: the reads succeed, so CONSTRUCT completes, and the commit is the record update stated. -/
theorem constructCommitsTheDevice : Obligations.ConstructCommitsTheDevice := by
  unfold Obligations.ConstructCommitsTheDevice
  intro s address hl hbus
  have hsucceeds : ∀ j < 3, s.answerFails j = false := firstFailure_none ((busSucceeds_iff s 3).1 hbus).2
  rw [exec_construct_of_unconstructed address hl, transact_succeeds hbus, commitDevice, calFromReads_calOrder,
    State.issue, records_construct address hsucceeds]
  rfl

/-- Settles O9: CONSTRUCT in `UNCONSTRUCTED` ends as every accepted command does at its first failure. -/
theorem constructFailureLeavesNoDevice : Obligations.ConstructFailureLeavesNoDevice := by
  unfold Obligations.ConstructFailureLeavesNoDevice
  intro s address k hl hhang hfail
  obtain ⟨-, hk, hbefore⟩ := firstFailure_some hfail
  have hdev : deviceOf (.construct address) s.lifecycle = some address := by rw [hl]; rfl
  exact ⟨exec_eq_afterFailure hdev hhang hfail, hl, afterFailure_new_txns .., hbefore, hk⟩

/-- Settles O10: in `READY` R214's table gives CONSTRUCT no device. -/
theorem constructIsRefusedInReady : Obligations.ConstructIsRefusedInReady := by
  unfold Obligations.ConstructIsRefusedInReady
  intro s address dev cal hl
  exact exec_eq_afterRefusal (by rw [hl]; rfl)

end Sys2Proof.Machine
end

section
/-! PROOFS. The register decoder, bit by bit (R121 to R123). -/

namespace Sys2Proof.Machine

section bits

variable {i xlsbShift : Nat} {msb lsb xlsb : Byte}

/-- Each byte gives the bit of `raw20` that its shift puts there; a bit past a byte's width reads as 0. -/
theorem raw20_getLsbD (hi : i < 20) :
    (raw20 xlsbShift msb lsb xlsb).getLsbD i =
      (!decide (i < 12) && msb.getLsbD (i - 12) || !decide (i < 4) && lsb.getLsbD (i - 4) ||
        xlsb.getLsbD (xlsbShift + i)) := by
  have hbelow (n : Nat) : i - n < 20 := by omega
  simp only [raw20, BitVec.getLsbD_or, BitVec.getLsbD_shiftLeft, BitVec.getLsbD_setWidth, BitVec.getLsbD_ushiftRight,
    hi, hbelow, decide_true, Bool.true_and]

/-- Bits 3:0 come from the XLSB byte alone: the LSB byte begins at bit 4. -/
theorem raw20_getLsbD_xlsb (hi : i < 4) : (raw20 2 msb lsb xlsb).getLsbD i = xlsb.getLsbD (i + 2) := by
  have hmsb : i < 12 := by omega
  simp [raw20_getLsbD (show i < 20 by omega), hmsb, hi, Nat.add_comm]

/-- Bits 5:4 are the overlap of the LSB and the XLSB byte (R121). -/
theorem raw20_getLsbD_overlap (hi : i < 2) :
    (raw20 2 msb lsb xlsb).getLsbD (i + 4) = (lsb.getLsbD i || xlsb.getLsbD (i + 6)) := by
  have hmsb : i + 4 < 12 := by omega
  have hxlsb : 2 + (i + 4) = i + 6 := by omega
  simp [raw20_getLsbD (show i + 4 < 20 by omega), hmsb, hxlsb]

/-- Bits 11:6 come from the LSB byte alone: the shifted XLSB byte ends at bit 5. -/
theorem raw20_getLsbD_lsb (hi : i < 6) : (raw20 2 msb lsb xlsb).getLsbD (i + 6) = lsb.getLsbD (i + 2) := by
  have hmsb : i + 6 < 12 := by omega
  have hxlsb : xlsb.getLsbD (2 + (i + 6)) = false := BitVec.getLsbD_of_ge _ _ (by omega)
  simp [raw20_getLsbD (show i + 6 < 20 by omega), hmsb, hxlsb]

/-- Bits 19:12 come from the MSB byte alone: the shifted LSB byte ends at bit 11. -/
theorem raw20_getLsbD_msb (hi : i < 8) : (raw20 2 msb lsb xlsb).getLsbD (i + 12) = msb.getLsbD i := by
  have hxlsb : xlsb.getLsbD (2 + (i + 12)) = false := BitVec.getLsbD_of_ge _ _ (by omega)
  simp [raw20_getLsbD (show i + 12 < 20 by omega), hxlsb]

/-- The two bytes of `raw16` do not overlap, so the OR is a sum (R123). -/
theorem raw16_toNat : (raw16 msb lsb).toNat = msb.toNat * 256 + lsb.toNat := by
  have hmsb : msb.toNat <<< 8 < 2 ^ 16 := Nat.shiftLeft_lt msb.isLt
  simp only [raw16, BitVec.toNat_or, BitVec.toNat_shiftLeft]
  rw [BitVec.toNat_setWidth_of_le (by decide), BitVec.toNat_setWidth_of_le (by decide), Nat.mod_eq_of_lt hmsb,
    ← Nat.shiftLeft_add_eq_or_of_lt lsb.isLt, Nat.shiftLeft_eq]

end bits

/-- Settles O15: both 20-bit values are `raw20` of their three bytes, at each range of its bits. -/
theorem rawValuesBitByBit : Obligations.RawValuesBitByBit := by
  unfold Obligations.RawValuesBitByBit
  intro b
  exact ⟨fun _ hi => ⟨raw20_getLsbD_xlsb hi, raw20_getLsbD_xlsb hi⟩,
    fun _ hi => ⟨raw20_getLsbD_overlap hi, raw20_getLsbD_overlap hi⟩,
    fun _ hi => ⟨raw20_getLsbD_lsb hi, raw20_getLsbD_lsb hi⟩,
    fun _ hi => ⟨raw20_getLsbD_msb hi, raw20_getLsbD_msb hi⟩,
    raw16_toNat⟩

end Sys2Proof.Machine
end

section
/-! PROOFS. The humidity clamp and the final shift (R162, R163). -/

namespace Sys2Proof.Machine

variable {w : Int}

theorem humClamp_of_neg (h : w < 0) : humClamp w = 0 := if_pos h

theorem humClamp_of_ge (h : 419430400 ≤ w) : humClamp w = 419430400 := by
  unfold humClamp
  split_ifs <;> omega

theorem humClamp_of_between (h0 : 0 ≤ w) (h1 : w ≤ 419430400) : humClamp w = w := by
  rw [humClamp, if_neg (not_lt.mpr h0), if_neg (not_lt.mpr h1)]

theorem humClamp_eq_max_min (w : Int) : humClamp w = max 0 (min w 419430400) := by
  rcases lt_or_ge w 0 with hneg | h0
  · rw [humClamp_of_neg hneg]
    omega
  rcases le_total w 419430400 with h1 | hge
  · rw [humClamp_of_between h0 h1]
    omega
  · rw [humClamp_of_ge hge]
    omega

theorem humClamp_range (w : Int) : 0 ≤ humClamp w ∧ humClamp w ≤ 419430400 := by
  rw [humClamp_eq_max_min]
  omega

theorem compH_exact (c : Config.HCoeffs) (hRaw tFine : Int) :
    compH .exact c hRaw tFine = shr (humClamp (humW c hRaw (humX tFine))) 12 := rfl

/-- Settles O18: the shift is monotone and takes the clamp's bounds to 0 and 102400; between the bounds the
clamp is the identity, so the shift is the floor of `w / 4096`. -/
theorem humidityClampAndShift : Obligations.HumidityClampAndShift := by
  unfold Obligations.HumidityClampAndShift
  intro c hRaw tFine w q
  have hq : q = shr (humClamp w) 12 := compH_exact c hRaw tFine
  have hbottom : shr 0 12 = 0 := by decide
  have htop : shr 419430400 12 = 102400 := by decide
  obtain ⟨hlo, hhi⟩ := humClamp_range w
  rw [hq]
  refine ⟨by rw [humClamp_eq_max_min, shr_eq]; rfl, hbottom ▸ shr_mono hlo 12, htop ▸ shr_mono hhi 12,
    fun hneg => by rw [humClamp_of_neg hneg, hbottom], fun hge => by rw [humClamp_of_ge hge, htop], fun h0 h1 => ?_⟩
  rw [humClamp_of_between h0 h1]
  exact shr_floor w 12

end Sys2Proof.Machine
end

section
/-! PROOFS. A STATUS that makes no measurement (R181, R182). -/

namespace Sys2Proof.Machine

/-- A command of one transaction that fails leaves the state that R213 describes with that one record. -/
theorem afterFailure_eq_afterOne {i : Instr} {t : Txn} {s : State} (htxns : transactionsOf i = [t])
    (hfails : s.answerFails 0 = true) (dev : DevAddr) :
    afterFailure i dev 0 s = afterOne dev t .failed (.busIoError 0) s := by
  have hreply : s.reply 0 t = .failed := if_pos hfails
  rw [afterFailure, htxns, List.take_succ_cons, List.take_zero, records_singleton, hreply]
  rfl

/-- Settles O14: R214's table refuses STATUS where there is no Device, and R213 ends it at its one read. -/
theorem statusRefusalAndFailure : Obligations.StatusRefusalAndFailure := by
  unfold Obligations.StatusRefusalAndFailure
  refine fun s => ⟨fun hl => exec_eq_afterRefusal (by rw [hl]; rfl), fun dev cal hl hhang hfail => ?_⟩
  have hdev : deviceOf .status s.lifecycle = some dev := by rw [hl]; rfl
  obtain ⟨-, hfails, -⟩ := firstFailure_some hfail
  rw [exec_eq_afterFailure hdev hhang hfail, afterFailure_eq_afterOne rfl hfails]

end Sys2Proof.Machine
end

section
/-! PROOFS. The temperature and the humidity output (R172, R175): an integer of at most 53 bits converts
exactly, so the division is the one operation that can round, and it is exact where its quotient is a
binary64. -/

namespace Sys2Proof.Machine

/-! ### Values that have a pattern -/

/-- Every integer up to `2^53`, scaled to any binade's last place, is the value of a magnitude: one below
`2^52` moves to the binade before, doubled, until it fills its significand or reaches the subnormals. -/
theorem exists_magValue_eq (k q : Nat) (hq : q ≤ 2 ^ 53) :
    ∃ m ≤ (k + 2) * 2 ^ 52, magValue m = q * 2 ^ ((k + 1 : ℤ) - 1075) := by
  induction k generalizing q with
  | zero => exact ⟨0 * 2 ^ 52 + q, by omega, magValue_binade 0 q (.inl rfl) hq⟩
  | succ k ih =>
    rcases le_or_gt (2 ^ 52) q with hfull | hsmall
    · exact ⟨(k + 1) * 2 ^ 52 + q, by omega, magValue_binade (k + 1) q (.inr hfull) hq⟩
    · obtain ⟨m, hm, hval⟩ := ih (2 * q) (by omega)
      refine ⟨m, hm.trans (Nat.mul_le_mul_right _ (by omega)), ?_⟩
      have hexp : ((k + 1 : ℕ) + 1 : ℤ) - 1075 = ((k + 1 : ℤ) - 1075) + 1 := by push_cast; ring
      rw [hval, hexp, zpow_add_one₀ two_ne_zero]
      push_cast
      ring

theorem f64Value_f64OfBits (neg : Bool) {m : Nat} (hm : m < 2 ^ 63) :
    f64Value (f64OfBits neg m) = signQ neg * magValue m := by
  rw [f64Value_eq, f64OfBits_neg neg m hm, magBits_f64OfBits neg m hm, signQ]

/-- An integer of at most 53 bits times a power of two in the range of R170 is the value of a pattern. -/
theorem exists_f64Value_eq {z e : ℤ} (hz : |z| ≤ 2 ^ 53) (hlo : -1074 ≤ e) (hhi : e ≤ 971) :
    ∃ y : F64, f64Value y = z * 2 ^ e := by
  rw [Int.abs_eq_natAbs] at hz
  obtain ⟨m, hm, hval⟩ := exists_magValue_eq (e + 1074).toNat z.natAbs (by omega)
  have hm63 : m < 2 ^ 63 := by omega
  have hexp : ((e + 1074).toNat + 1 : ℤ) - 1075 = e := by omega
  rw [hexp] at hval
  obtain ⟨n, rfl | rfl⟩ := z.eq_nat_or_neg
  · exact ⟨f64OfBits false m, by simp [f64Value_f64OfBits _ hm63, hval, signQ]⟩
  · exact ⟨f64OfBits true m, by simp [f64Value_f64OfBits _ hm63, hval, signQ]⟩

/-- Where the exact result has a pattern, rounding to nearest keeps its value (R171). -/
theorem IsNearest.value_eq {r y : F64} {q : ℚ} (h : IsNearest r q) (hy : f64Value y = q) : f64Value r = q := by
  obtain ⟨hle, -⟩ := h.2 y
  rw [hy, sub_self, abs_zero, abs_nonpos_iff, sub_eq_zero] at hle
  exact hle

/-! ### One conversion and one division -/

/-- An integer of at most 53 bits is far from the overflow threshold. -/
theorem abs_lt_two_pow_1023 {z : ℤ} (hz : |z| ≤ 2 ^ 53) : |(z : ℚ)| < 2 ^ 1023 :=
  calc |(z : ℚ)| ≤ 2 ^ 53 := by exact_mod_cast hz
    _ < 2 ^ 1023 := pow_lt_pow_right₀ one_lt_two (by decide)

/-- `i2f` is exact up to `2^53` (R171). -/
theorem i2f_value {z : ℤ} (hz : |z| ≤ 2 ^ 53) : f64Value (i2f .tiesToEven z) = z := by
  obtain ⟨y, hy⟩ := exists_f64Value_eq (e := 0) hz (by decide) (by decide)
  rw [zpow_zero, mul_one] at hy
  exact (i2f_nearest z (abs_lt_two_pow_1023 hz)).value_eq hy

/-- Converting exactly and then dividing by a constant of at least 1 rounds once. -/
theorem fdiv_i2f_nearest {z : ℤ} (hz : |z| ≤ 2 ^ 53) {b : F64} (hfin : f64Finite b = true) (hmant : f64Mant b ≠ 0)
    (hb : 1 ≤ f64Value b) : IsNearest (fdiv .tiesToEven (i2f .tiesToEven z) b) (z / f64Value b) := by
  have hz' := abs_lt_two_pow_1023 hz
  obtain ⟨hfinz, -⟩ := i2f_nearest z hz'
  have hquot : |(z : ℚ) / f64Value b| < 2 ^ 1023 := by
    rw [abs_div, abs_of_pos (zero_lt_one.trans_le hb)]
    exact (div_le_self (abs_nonneg _) hb).trans_lt hz'
  rw [← i2f_value hz] at hquot ⊢
  exact fdiv_nearest _ b hfinz hfin hmant hquot

theorem f64Value_hundred : f64Value f64Hundred = 100 := by
  have hneg : f64Neg f64Hundred = false := by decide
  have hnum : f64Num f64Hundred = 100 * 2 ^ 46 := by decide
  have hden : f64Den f64Hundred = 2 ^ 46 := by decide
  norm_num [f64Value, hneg, hnum, hden]

theorem f64Value_tenTwentyFour : f64Value f64TenTwentyFour = 1024 := by
  have hneg : f64Neg f64TenTwentyFour = false := by decide
  have hnum : f64Num f64TenTwentyFour = 1024 * 2 ^ 42 := by decide
  have hden : f64Den f64TenTwentyFour = 2 ^ 42 := by decide
  norm_num [f64Value, hneg, hnum, hden]

/-- Settles O20: `T_centi` converts exactly, so the division by 100.0 is the one rounding. -/
theorem temperatureOutputIsNearest : Obligations.TemperatureOutputIsNearest := by
  unfold Obligations.TemperatureOutputIsNearest
  intro tCenti hlo hhi
  have hz : |tCenti| ≤ 2 ^ 53 := abs_le.mpr ⟨by omega, by omega⟩
  have hnearest := fdiv_i2f_nearest hz (b := f64Hundred) (by decide) (by decide) (by norm_num [f64Value_hundred])
  rwa [f64Value_hundred] at hnearest

/-- Settles O22: `H_q10 / 1024` is an integer of at most 53 bits times a power of two, so it has a pattern and
the division does not round either. -/
theorem humidityOutputIsExact : Obligations.HumidityOutputIsExact := by
  unfold Obligations.HumidityOutputIsExact
  intro q hlo hhi
  have hz : |q| ≤ 2 ^ 53 := abs_le.mpr ⟨by omega, by omega⟩
  have hnearest := fdiv_i2f_nearest hz (b := f64TenTwentyFour) (by decide) (by decide)
    (by norm_num [f64Value_tenTwentyFour])
  rw [f64Value_tenTwentyFour] at hnearest
  obtain ⟨y, hy⟩ := exists_f64Value_eq (e := -10) hz (by decide) (by decide)
  have hscale : (q : ℚ) * 2 ^ (-10 : ℤ) = q / 1024 := by rw [zpow_neg, ← div_eq_mul_inv]; norm_num
  exact ⟨hnearest.1, hnearest.value_eq (hy.trans hscale)⟩

end Sys2Proof.Machine
end

section
/-! PROOFS. The one-transaction commands leave the engine as it is (R187 to R189). -/

namespace Sys2Proof.Machine

/-- Each of the six issues one transaction in `READY` and then only answers (R187, R189). -/
theorem exec_eq_whenReady_respond {i : Instr} (hconstruct : ∀ address, i ≠ .construct address)
    (hstatus : i ≠ .status) :
    ∃ (x : Txn) (answer : (Nat → Nat → Byte) → Response), ∀ s, exec i s =
      whenReady s fun dev _ => transact dev [x] (fun bytes t => t.respond (answer bytes)) s := by
  cases i with
  | construct address => exact absurd rfl (hconstruct address)
  | status => exact absurd rfl hstatus
  | readId | readStatus | reset | writeConfig | writeCtrlMeas | writeCtrlHum => exact ⟨_, _, fun _ => rfl⟩

/-- One transaction and an answer: whether it succeeds or fails, it is on the bus record, and neither the
engine nor the host's inputs have changed (R188, R213). -/
theorem transact_respond_frame {dev : DevAddr} {x : Txn} {answer : (Nat → Nat → Byte) → Response} {s t : State}
    (h : transact dev [x] (fun bytes u => u.respond (answer bytes)) s = .next t) :
    t.engine = s.engine ∧ t.inputs = s.inputs ∧ t.busTrace = s.busTrace ++ s.records dev [x] := by
  obtain ⟨-, hhang⟩ | ⟨k, -, hfirst, hfail⟩ | ⟨-, hdone⟩ :=
    transact_cases dev [x] (fun bytes u => u.respond (answer bytes)) s
  · cases hhang.symm.trans h
  · obtain rfl : k = 0 := Nat.lt_one_iff.1 (firstFailure_some hfirst).1
    cases hfail.symm.trans h
    exact ⟨rfl, rfl, rfl⟩
  · cases hdone.symm.trans h
    exact ⟨rfl, rfl, rfl⟩

/-- Settles O36: in `UNCONSTRUCTED` the refusal only answers, and in `READY` the one transaction does. -/
theorem oneTransactionCommandsKeepTheEngine : Obligations.OneTransactionCommandsKeepTheEngine := by
  unfold Obligations.OneTransactionCommandsKeepTheEngine
  intro i s t hconstruct hstatus h
  obtain ⟨x, answer, hexec⟩ := exec_eq_whenReady_respond hconstruct hstatus
  rw [hexec s] at h
  cases hl : s.lifecycle with
  | unconstructed =>
    cases (whenReady_unconstructed hl).symm.trans h
    exact ⟨rfl, rfl, fun _ => rfl, nofun⟩
  | ready dev cal =>
    rw [whenReady_ready hl] at h
    obtain ⟨hengine, hinputs, htrace⟩ := transact_respond_frame h
    refine ⟨hengine, hinputs, nofun, ?_⟩
    rintro _ _ ⟨⟩
    exact ⟨_, by rw [htrace, records_singleton], rfl⟩

end Sys2Proof.Machine
end

section
/-! PROOFS. Refusal and exception (R210 to R219): how a command that has a next state ended, and that what
the observer has recorded never decides what a command does. -/

namespace Sys2Proof.Machine

/-! ### How a command ended -/

/-- REFUSED is none of the responses a completed command may give (R78). -/
theorem completesWith_refused (i : Instr) : completesWith i .refused = false := by cases i <;> rfl

/-- BUS_IO_ERROR is none of them either. -/
theorem completesWith_busIoError (i : Instr) (k : Nat) : completesWith i (.busIoError k) = false := by
  cases i <;> rfl

/-- A command that has a next state was refused, or ended at its first failing transaction, or completed
(R224). -/
theorem exec_next_cases {i : Instr} {s t : State} (h : exec i s = .next t) :
    (deviceOf i s.lifecycle = none ∧ t = afterRefusal s) ∨
    ∃ dev, deviceOf i s.lifecycle = some dev ∧ hangs (transactionsOf i).length s.answers = false ∧
      ((∃ k, s.firstFailure (transactionsOf i).length = some k ∧ t = afterFailure i dev k s) ∨
      (∃ complete, IsCompletion i complete ∧ s.firstFailure (transactionsOf i).length = none ∧
        t = complete s.answerByte (s.issue dev (transactionsOf i)))) := by
  obtain ⟨hdev, hrefuse⟩ | ⟨dev, complete, hdev, hcomplete, hrun⟩ := exec_followsItsTables i s
  · cases hrefuse.symm.trans h
    exact .inl ⟨hdev, rfl⟩
  · rw [hrun] at h
    obtain ⟨-, hstuck⟩ | ⟨k, hhang, hfirst, hfail⟩ | ⟨hbus, hdone⟩ :=
      transact_cases dev (transactionsOf i) complete s
    · cases hstuck.symm.trans h
    · cases hfail.symm.trans h
      exact .inr ⟨dev, hdev, hhang, .inl ⟨k, hfirst, issue_take_busIoError (firstFailure_some hfirst).1 dev s⟩⟩
    · cases hdone.symm.trans h
      obtain ⟨hhang, hnone⟩ := (busSucceeds_iff ..).1 hbus
      exact .inr ⟨dev, hdev, hhang, .inr ⟨complete, hcomplete, hnone, rfl⟩⟩

/-- The response with which a command ended tells how: REFUSED only where it was refused (R214),
BUS_IO_ERROR only at its first failing transaction (R213), and else a response of its kind (R78). -/
theorem exec_response_cases {i : Instr} {s t : State} {r : Response} (h : exec i s = .next t)
    (hresp : t.responses = s.responses ++ [r]) :
    (r = .refused ∧ deviceOf i s.lifecycle = none) ∨
    (∃ dev k, r = .busIoError k ∧ t = afterFailure i dev k s) ∨ completesWith i r = true := by
  obtain ⟨hdev, rfl⟩ | ⟨dev, -, -, ⟨k, -, rfl⟩ | ⟨complete, hcomplete, -, rfl⟩⟩ := exec_next_cases h
  · cases List.append_cancel_left hresp
    exact .inl ⟨rfl, hdev⟩
  · cases List.append_cancel_left hresp
    exact .inr (.inl ⟨dev, k, rfl, rfl⟩)
  · obtain ⟨r', hr', hadded⟩ := hcomplete.responses s.answerByte (s.issue dev (transactionsOf i))
    cases List.append_cancel_left (hadded.symm.trans hresp)
    exact .inr (.inr hr')

/-- Only a refusal answers REFUSED (R214). -/
theorem deviceOf_eq_none_of_refused {i : Instr} {s t : State} (h : exec i s = .next t)
    (hresp : t.responses = s.responses ++ [.refused]) : deviceOf i s.lifecycle = none := by
  obtain ⟨-, hdev⟩ | ⟨dev, k, hr, -⟩ | hr := exec_response_cases h hresp
  · exact hdev
  · cases hr
  · cases (completesWith_refused i).symm.trans hr

/-- Only the exception answers BUS_IO_ERROR (R213). -/
theorem eq_afterFailure_of_busIoError {i : Instr} {s t : State} {k : Nat} (h : exec i s = .next t)
    (hresp : t.responses = s.responses ++ [.busIoError k]) : ∃ dev, t = afterFailure i dev k s := by
  obtain ⟨hr, -⟩ | ⟨dev, k', hr, ht⟩ | hr := exec_response_cases h hresp
  · cases hr
  · cases hr
    exact ⟨dev, ht⟩
  · cases (completesWith_busIoError i k).symm.trans hr

/-- Settles O37: a command with no device to talk to is refused, and no other answers REFUSED. -/
theorem refusedExactlyWhenNotAccepted : Obligations.RefusedExactlyWhenNotAccepted := by
  unfold Obligations.RefusedExactlyWhenNotAccepted
  exact fun i s => ⟨exec_eq_afterRefusal, fun t => deviceOf_eq_none_of_refused⟩

/-- Settles O38: `exec_eq_afterFailure` gives the outcome, which keeps the engine's fields as they are. -/
theorem busErrorLeavesNoTrace : Obligations.BusErrorLeavesNoTrace := by
  unfold Obligations.BusErrorLeavesNoTrace
  intro i s dev k hdev hhang hfail
  exact ⟨exec_eq_afterFailure hdev hhang hfail, rfl, (firstFailure_some hfail).1⟩

/-! ### The observer's record does not decide what a command does -/

/-- The state without what the observer has recorded (R34). -/
def State.withoutRecord (s : State) : State := { s with busTrace := [], responses := [] }

/-- The state with an earlier record put before the one it has. -/
def State.prependRecord (trace : List BusRecord) (given : List Response) (s : State) : State :=
  { s with busTrace := trace ++ s.busTrace, responses := given ++ s.responses }

/-- The same change made to the next state, where there is one. -/
def mapNext (f : State → State) : Host.Outcome State Fault Refusal → Host.Outcome State Fault Refusal
  | .next s => .next (f s)
  | .fault e => .fault e
  | .refused r => .refused r

/-- An earlier record is carried along by this run and has no other effect on it. -/
def IgnoresRecord (run : State → Host.Outcome State Fault Refusal) : Prop :=
  ∀ trace given s, run (s.prependRecord trace given) = mapNext (State.prependRecord trace given) (run s)

section prependRecord
variable (trace : List BusRecord) (given : List Response) (s : State)

theorem prependRecord_withoutRecord : s.withoutRecord.prependRecord s.busTrace s.responses = s := by
  simp [State.withoutRecord, State.prependRecord]

theorem respond_prependRecord (r : Response) :
    (s.prependRecord trace given).respond r = (s.respond r).prependRecord trace given := by
  simp [State.prependRecord, State.respond]

theorem issue_prependRecord (dev : DevAddr) (txns : List Txn) :
    (s.prependRecord trace given).issue dev txns = (s.issue dev txns).prependRecord trace given := by
  have hrecords : (s.prependRecord trace given).records dev txns = s.records dev txns := rfl
  rw [State.issue, hrecords]
  simp [State.issue, State.prependRecord]

theorem commitDevice_prependRecord (address : DevAddr) (bytes : Nat → Nat → Byte) :
    commitDevice address bytes (s.prependRecord trace given) =
      (commitDevice address bytes s).prependRecord trace given :=
  respond_prependRecord trace given { s with lifecycle := .ready address (calFromReads params.calOrder bytes) } .ok

theorem deliver_measure_prependRecord (cal : Calibration) (b : Block 8) :
    ((s.prependRecord trace given).measure cal b).deliver =
      (s.measure cal b).deliver.prependRecord trace given := by
  simp [deliver_measure, State.prependRecord]

end prependRecord

/-- The transactions see only the sensor's answers, so the record matters no more than to the completion. -/
theorem transact_ignoresRecord {dev : DevAddr} {txns : List Txn} {complete : (Nat → Nat → Byte) → State → State}
    (hcomplete : ∀ bytes trace given s,
      complete bytes (s.prependRecord trace given) = (complete bytes s).prependRecord trace given) :
    IgnoresRecord (transact dev txns complete) := by
  intro trace given s
  obtain ⟨hhang, hrun⟩ | ⟨k, hhang, hfirst, hrun⟩ | ⟨hbus, hrun⟩ := transact_cases dev txns complete s
  · rw [hrun]
    exact if_pos hhang
  · have hfails : transact dev txns complete (s.prependRecord trace given) = _ := transact_fails hhang hfirst
    rw [hrun, hfails, issue_prependRecord]
    exact congrArg _ (respond_prependRecord ..)
  · have hdone : transact dev txns complete (s.prependRecord trace given) = _ := transact_succeeds hbus
    rw [hrun, hdone, issue_prependRecord, hcomplete]
    rfl

/-- The acceptance check sees only the lifecycle state. -/
theorem whenReady_ignoresRecord {run : DevAddr → Calibration → State → Host.Outcome State Fault Refusal}
    (hrun : ∀ dev cal, IgnoresRecord (run dev cal)) :
    IgnoresRecord fun s => whenReady s fun dev cal => run dev cal s := by
  intro trace given s
  beta_reduce
  cases hl : s.lifecycle with
  | unconstructed =>
    rw [whenReady_unconstructed hl, whenReady_unconstructed (s := s.prependRecord trace given) hl]
    exact congrArg _ (respond_prependRecord ..)
  | ready dev cal =>
    rw [whenReady_ready hl, whenReady_ready (s := s.prependRecord trace given) hl]
    exact hrun dev cal trace given s

/-- So does CONSTRUCT's own check (R101). -/
theorem execConstruct_ignoresRecord (address : DevAddr) : IgnoresRecord (execConstruct address) := by
  intro trace given s
  have hlifecycle : (s.prependRecord trace given).lifecycle = s.lifecycle := rfl
  unfold execConstruct
  rw [hlifecycle]
  split
  · exact transact_ignoresRecord (fun _ _ _ _ => commitDevice_prependRecord ..) trace given s
  · exact congrArg _ (respond_prependRecord ..)

/-- No command looks at the record: not CONSTRUCT, not STATUS, and none of the six that only answer. -/
theorem exec_ignoresRecord (i : Instr) : IgnoresRecord (exec i) := by
  cases i with
  | construct address => exact execConstruct_ignoresRecord address
  | status =>
    exact whenReady_ignoresRecord fun _ _ => transact_ignoresRecord fun _ _ _ _ => deliver_measure_prependRecord ..
  | readId | readStatus | reset | writeConfig | writeCtrlMeas | writeCtrlHum =>
    exact whenReady_ignoresRecord fun _ _ => transact_ignoresRecord fun _ _ _ _ => respond_prependRecord ..

/-- Two states that differ in the record only end a command with the same engine and the same response. -/
theorem exec_next_of_withoutRecord_eq {c : Instr} {s t u : State} (hsame : t.withoutRecord = s.withoutRecord)
    (h : exec c s = .next u) :
    ∃ v, exec c t = .next v ∧ v.engine = u.engine ∧
      v.responses.drop t.responses.length = u.responses.drop s.responses.length := by
  have hs := exec_ignoresRecord c s.busTrace s.responses s.withoutRecord
  have ht := exec_ignoresRecord c t.busTrace t.responses t.withoutRecord
  rw [prependRecord_withoutRecord] at hs ht
  rw [hsame] at ht
  rw [h] at hs
  cases hbase : exec c s.withoutRecord with
  | next w =>
    rw [hbase] at hs ht
    cases hs
    exact ⟨_, ht, rfl, List.drop_left.trans List.drop_left.symm⟩
  | fault | refused =>
    rw [hbase] at hs
    cases hs

/-- Settles O39: a command that ended with BUS_IO_ERROR has changed the answers left and the record only,
and the next command does not look at the record. -/
theorem noStickyError : Obligations.NoStickyError := by
  unfold Obligations.NoStickyError
  intro i c s t u k h hresp
  obtain ⟨dev, rfl⟩ := eq_afterFailure_of_busIoError h hresp
  exact ⟨⟨rfl, rfl, rfl⟩, exec_next_of_withoutRecord_eq rfl⟩

end Sys2Proof.Machine
end

section
/-! PROOFS. Encoding and decoding are inverse to each other, and a step runs the decoded command (R72, R73,
R75, R86, R230). -/

namespace Sys2Proof

open Machine

theorem canonical_encode (i : Instr) : i.format.canonical (encode i) = true := by
  obtain ⟨r, -, -, -, -, hcanonical⟩ := encodesItsRow i
  exact hcanonical

/-- A word whose ignored bits are 0 has only the bits its format uses. -/
theorem and_usedBits_of_canonical {f : Format} {w : CmdWord} (h : f.canonical w = true) : w &&& f.usedBits = w := by
  have hignored : w &&& ~~~f.usedBits = 0 := eq_of_beq h
  calc w &&& f.usedBits = w &&& f.usedBits ||| w &&& ~~~f.usedBits := by rw [hignored]; simp
    _ = w := by rw [← BitVec.and_or_distrib_left, BitVec.or_not_self, BitVec.and_allOnes]

/-- Settles O1: decoding undoes encoding; encoding gives back the bits the format uses, which are all of them. -/
theorem decodeEncodeAgree : Obligations.DecodeEncodeAgree := by
  unfold Obligations.DecodeEncodeAgree
  exact ⟨fun i => ⟨canonical_encode i, decode_encode i⟩,
    fun w hw => (encode_decode w).trans (and_usedBits_of_canonical hw)⟩

/-- Settles O4: twelve evaluations of the decoder and the assembler. -/
theorem specExampleWordsDecode : Obligations.SpecExampleWordsDecode := by
  unfold Obligations.SpecExampleWordsDecode
  decide

/-! ### The step -/

theorem step_of_command {s : State} {w : CmdWord} {rest : List HostInput} (h : s.inputs = .command w :: rest) :
    step s = exec (decode w) { s with inputs := rest } := by
  rw [step, h]
  rfl

theorem step_of_hardwareReset {s : State} {rest : List HostInput} (h : s.inputs = .hardwareReset :: rest) :
    step s = .next ({ s with inputs := rest } : State).hardwareReset := by
  rw [step, h]
  rfl

theorem step_of_idle {s : State} (h : s.inputs = []) : step s = .next s := by
  rw [step, h]

/-- Putting a command's word on the port makes the next step run that command. -/
theorem step_withFetchWord_encode (s : State) (i : Instr) :
    step (s.withFetchWord 16 (encode i).toNat) = exec i s := by
  have hword : BitVec.ofNat 16 ((encode i).toNat % 2 ^ 16) = encode i := by
    rw [Nat.mod_eq_of_lt (encode i).isLt, BitVec.ofNat_toNat, BitVec.setWidth_eq]
  rw [State.withFetchWord, hword, step_command, decode_encode]

/-- Settles O5: the three branches of a step that a hardware reset leaves. -/
theorem stepRunsTheDecodedCommand : Obligations.StepRunsTheDecodedCommand := by
  unfold Obligations.StepRunsTheDecodedCommand
  exact ⟨fun _ _ _ h => step_of_command h, step_withFetchWord_encode, fun _ h => step_of_idle h⟩

/-- Settles O6: the reset branch of a step, its update written out. -/
theorem hardwareResetForgetsTheDevice : Obligations.HardwareResetForgetsTheDevice := by
  unfold Obligations.HardwareResetForgetsTheDevice
  exact fun _ _ h => step_of_hardwareReset h

/-! ### Fixed values -/

/-- Settles O7: the reset state's own fields. -/
theorem resetLeavesNoValue : Obligations.ResetLeavesNoValue := by
  unfold Obligations.ResetLeavesNoValue
  exact ⟨rfl, rfl, rfl⟩

/-- Settles O43: each code and bit by evaluation; the two constructors of a pressure are different. -/
theorem responseBits : Obligations.ResponseBits := by
  unfold Obligations.ResponseBits
  exact ⟨rfl, fun _ => rfl, fun _ => rfl, fun _ _ => rfl, fun _ => rfl, rfl, fun _ => ⟨rfl, rfl⟩, rfl, rfl, rfl, nofun⟩

/-- Settles O45: the fields of the parameter record. -/
theorem parameterValuesTaken : Obligations.ParameterValuesTaken := by
  unfold Obligations.ParameterValuesTaken
  exact ⟨rfl, rfl, rfl, rfl, rfl, rfl, rfl, rfl, rfl, rfl, rfl, by decide⟩

end Sys2Proof
end

section
/-! PROOFS. The outcome of a command as a function, and what every command and step keep (R7, R22, R26, R58,
R100, R224, R240). -/

namespace Sys2Proof.Machine

/-! ### The engine after a completed command -/

/-- The engine's state after a command whose transactions succeed: CONSTRUCT commits the Device (R112), STATUS
leaves no working register with a value (R180), the others change nothing (R188). -/
def engineAfter (i : Instr) (s : State) : Lifecycle × Option Work :=
  match i with
  | .construct address => (.ready address (calUnpack (takeBlock (s.answerByte 0) 24) (takeBlock (s.answerByte 1) 1)
      (takeBlock (s.answerByte 2) 8)), s.work)
  | .status => (s.lifecycle, none)
  | _ => s.engine

theorem lifecycle_of_deviceOf_construct {address dev : DevAddr} {l : Lifecycle}
    (h : deviceOf (.construct address) l = some dev) : l = .unconstructed ∧ dev = address := by
  cases l with
  | unconstructed => cases h; exact ⟨rfl, rfl⟩
  | ready dev cal => cases h

theorem device_of_deviceOf_ready {i : Instr} {dev d : DevAddr} {cal : Calibration}
    (h : deviceOf i (.ready dev cal) = some d) : (∀ address, i ≠ .construct address) ∧ d = dev := by
  cases i with
  | construct address => cases h
  | status | readId | reset | readStatus | writeConfig | writeCtrlMeas | writeCtrlHum =>
    cases h
    exact ⟨nofun, rfl⟩

theorem ready_of_device {l : Lifecycle} {dev : DevAddr} (h : l.device = some dev) : ∃ cal, l = .ready dev cal := by
  cases l with
  | unconstructed => cases h
  | ready dev' cal => cases h; exact ⟨cal, rfl⟩

/-- STATUS with a successful burst read delivers the Measurement of its stages (R180). -/
theorem exec_status_of_busSucceeds {s : State} {dev : DevAddr} {cal : Calibration} (hl : s.lifecycle = .ready dev cal)
    (hbus : s.busSucceeds 1 = true) :
    exec .status s =
      .next ((s.issue dev [.read 0xF7 8]).measure cal (takeBlock (s.answerByte 0) 8)).deliver := by
  have hexec : exec .status s = execStatus s := rfl
  rw [hexec, execStatus, whenReady_ready hl, transact_succeeds hbus]

/-- What an accepted command whose transactions succeed leaves of the engine. -/
theorem engine_of_busSucceeds {i : Instr} {s t : State} {dev : DevAddr} (hdev : deviceOf i s.lifecycle = some dev)
    (hbus : s.busSucceeds (transactionsOf i).length = true) (h : exec i s = .next t) :
    t.engine = engineAfter i s := by
  cases i with
  | construct address =>
    obtain ⟨hl, rfl⟩ := lifecycle_of_deviceOf_construct hdev
    rw [exec_construct_of_unconstructed _ hl, transact_succeeds hbus] at h
    cases h
    rfl
  | status =>
    obtain ⟨cal, hl⟩ := ready_of_device hdev
    rw [exec_status_of_busSucceeds hl hbus] at h
    cases h
    rfl
  | readId | readStatus | reset | writeConfig | writeCtrlMeas | writeCtrlHum =>
    exact (oneTransactionCommandsKeepTheEngine _ s t (by nofun) (by nofun) h).1

/-! ### The outcome -/

/-- Settles O41: a command is refused or runs its transactions by the tables (`exec_followsItsTables`), which
hang, fail or succeed (`transact_cases`); `engine_of_busSucceeds` gives the lifecycle state it leaves. -/
theorem outcomeOfACommand : Obligations.OutcomeOfACommand := by
  unfold Obligations.OutcomeOfACommand
  intro i s
  obtain ⟨hnone, -⟩ | ⟨dev, complete, hdev, hcomplete, hrun⟩ := exec_followsItsTables i s
  · exact .inl ⟨hnone, exec_eq_afterRefusal hnone⟩
  refine .inr ⟨dev, hdev, ?_⟩
  obtain ⟨hhang, hstuck⟩ | ⟨k, hhang, hfirst, -⟩ | ⟨hbus, hdone⟩ := transact_cases dev (transactionsOf i) complete s
  · exact .inl ⟨hhang, hrun.trans hstuck⟩
  · exact .inr (.inl ⟨k, hhang, hfirst, exec_eq_afterFailure hdev hhang hfirst⟩)
  · have hexec := hrun.trans hdone
    have hlifecycle := congrArg Prod.fst (engine_of_busSucceeds hdev hbus hexec)
    obtain ⟨r, hr, hresponses⟩ := hcomplete.responses s.answerByte (s.issue dev (transactionsOf i))
    refine .inr (.inr ⟨hbus, _, r, hexec, hcomplete.busTrace .., hcomplete.answers .., hcomplete.oracleIndex ..,
      hcomplete.inputs .., hresponses, hr, hlifecycle.trans ?_⟩)
    cases i <;> rfl

/-- Settles O40: of the four outcomes only the hang is no next state, and it takes a listed `never`. -/
theorem onlyAHangStopsACommand : Obligations.OnlyAHangStopsACommand := by
  unfold Obligations.OnlyAHangStopsACommand
  intro i s
  obtain ⟨hnone, hexec⟩ | ⟨dev, hdev, ⟨hhang, hexec⟩ | ⟨k, hhang, -, hexec⟩ | ⟨hbus, t, -, hexec, -⟩⟩ :=
    outcomeOfACommand i s
  all_goals rw [hexec]
  · exact ⟨fun _ hsome => (nomatch hnone.symm.trans hsome), fun _ => ⟨_, rfl⟩, nofun⟩
  · exact ⟨fun _ _ _ => rfl, fun hnever => (nomatch hhang.symm.trans (hangs_of_never_not_mem _ _ hnever)), nofun⟩
  · exact ⟨fun _ _ hhang' => (nomatch hhang.symm.trans hhang'), fun _ => ⟨_, rfl⟩, nofun⟩
  · have hhang := ((busSucceeds_iff ..).1 hbus).1
    exact ⟨fun _ _ hhang' => (nomatch hhang.symm.trans hhang'), fun _ => ⟨_, rfl⟩, nofun⟩

/-- Settles O42: the response of each of the three outcomes that have a next state. -/
theorem everyCommandAnswersOnce : Obligations.EveryCommandAnswersOnce := by
  unfold Obligations.EveryCommandAnswersOnce
  intro i s t h
  obtain ⟨-, rfl⟩ | ⟨dev, -, -, ⟨k, hfirst, rfl⟩ | ⟨complete, hcomplete, -, rfl⟩⟩ := exec_next_cases h
  · exact ⟨.refused, rfl, .inr (.inl rfl)⟩
  · exact ⟨.busIoError k, rfl, .inr (.inr ⟨k, rfl, (firstFailure_some hfirst).1⟩)⟩
  · obtain ⟨r, hr, hresponses⟩ := hcomplete.responses s.answerByte (s.issue dev (transactionsOf i))
    exact ⟨r, hresponses, .inl hr⟩

/-! ### The transactions on the bus -/

theorem transactionsOf_length_le (i : Instr) : (transactionsOf i).length ≤ 3 := by
  cases i <;> simp [transactionsOf]

/-- Each record but the last is of a transaction that has succeeded, where all but the last have. -/
theorem reply_ne_failed_of_mem_dropLast {s : State} {dev : DevAddr} {txns : List Txn} {r : BusRecord}
    (hsucceed : ∀ j, j + 1 < txns.length → s.answerFails j = false) (hr : r ∈ (s.records dev txns).dropLast) :
    r.reply ≠ .failed := by
  obtain ⟨j, hj, rfl⟩ := List.getElem_of_mem hr
  rw [List.length_dropLast, records_length] at hj
  rw [List.getElem_dropLast]
  simp only [State.records, List.getElem_map, List.getElem_zipIdx, State.reply, Nat.zero_add,
    hsucceed j (by omega)]
  cases txns[j] <;> nofun

/-- A command that has a next state took an answer for each of the first `k` of R79's transactions, all but the
last of them successful, and put them on the bus; where it was refused, `k` is 0. -/
theorem exec_issues_take {i : Instr} {s t : State} (h : exec i s = .next t) :
    ∃ dev, ∃ k ≤ (transactionsOf i).length, t.answers = s.answers.drop k ∧ t.oracleIndex = s.oracleIndex + k ∧
      t.busTrace = s.busTrace ++ s.records dev ((transactionsOf i).take k) ∧
      (∀ j, j + 1 < k → s.answerFails j = false) ∧ (k = 0 ∨ deviceOf i s.lifecycle = some dev) := by
  obtain ⟨-, rfl⟩ | ⟨dev, hdev, -, ⟨k, hfirst, rfl⟩ | ⟨complete, hcomplete, hnone, rfl⟩⟩ := exec_next_cases h
  · exact ⟨0, 0, Nat.zero_le _, rfl, rfl, (List.append_nil _).symm, nofun, .inl rfl⟩
  · obtain ⟨hk, -, hbefore⟩ := firstFailure_some hfirst
    exact ⟨dev, k + 1, hk, rfl, rfl, rfl, fun j hj => hbefore j (by omega), .inr hdev⟩
  · refine ⟨dev, (transactionsOf i).length, le_rfl, hcomplete.answers .., hcomplete.oracleIndex .., ?_,
      fun j hj => firstFailure_none hnone j (by omega), .inr hdev⟩
    rw [hcomplete.busTrace, issue_busTrace, List.take_length]

/-- Settles O51: `exec_issues_take` names the transactions issued, and a table row has at most three. -/
theorem atMostThreeTransactionsInOrder : Obligations.AtMostThreeTransactionsInOrder := by
  unfold Obligations.AtMostThreeTransactionsInOrder
  intro i s t h
  obtain ⟨dev, k, hk, hanswers, hindex, htrace, hsucceed, hdev⟩ := exec_issues_take h
  have hlength : ((transactionsOf i).take k).length = k := List.length_take_of_le hk
  have hnew : t.busTrace.drop s.busTrace.length = s.records dev ((transactionsOf i).take k) := by
    rw [htrace, List.drop_left]
  rw [hnew]
  refine ⟨k, hk.trans (transactionsOf_length_le i), hanswers, hindex, by rw [htrace, List.take_left], records_txn ..,
    by rw [records_length, hlength], fun r => reply_ne_failed_of_mem_dropLast (by rwa [hlength]), fun hrefused => ?_⟩
  exact hdev.resolve_right fun hsome => by cases (deviceOf_eq_none_of_refused h hrefused).symm.trans hsome

/-! ### The lifecycle state (R22, R26) -/

/-- A command in `READY` leaves the Device as it is. -/
theorem exec_lifecycle_of_ready {i : Instr} {s t : State} {dev : DevAddr} {cal : Calibration}
    (hl : s.lifecycle = .ready dev cal) (h : exec i s = .next t) : t.lifecycle = .ready dev cal := by
  obtain ⟨-, rfl⟩ | ⟨d, hdev, hhang, ⟨k, -, rfl⟩ | ⟨-, -, hnone, -⟩⟩ := exec_next_cases h
  · exact hl
  · exact hl
  · have hengine := engine_of_busSucceeds hdev ((busSucceeds_iff ..).2 ⟨hhang, hnone⟩) h
    rw [hl] at hdev
    have hconstruct := (device_of_deviceOf_ready hdev).1
    rw [← hl]
    cases i with
    | construct address => exact absurd rfl (hconstruct address)
    | status | readId | readStatus | reset | writeConfig | writeCtrlMeas | writeCtrlHum =>
      exact congrArg Prod.fst hengine

/-- A command in `UNCONSTRUCTED` leaves it so, unless it is a CONSTRUCT whose reads succeed. -/
theorem exec_lifecycle_of_unconstructed {i : Instr} {s t : State} (hl : s.lifecycle = .unconstructed)
    (h : exec i s = .next t) :
    t.lifecycle = .unconstructed ∨ ∃ address, i = .construct address ∧ s.busSucceeds 3 = true := by
  obtain ⟨-, rfl⟩ | ⟨d, hdev, hhang, ⟨k, -, rfl⟩ | ⟨-, -, hnone, -⟩⟩ := exec_next_cases h
  · exact .inl hl
  · exact .inl hl
  · rw [hl] at hdev
    cases i with
    | construct address => exact .inr ⟨address, rfl, (busSucceeds_iff ..).2 ⟨hhang, hnone⟩⟩
    | status | readId | readStatus | reset | writeConfig | writeCtrlMeas | writeCtrlHum => cases hdev

/-- The records a command in `READY` adds are of transactions with the stored address. -/
theorem exec_records_of_ready {i : Instr} {s t : State} {dev : DevAddr} {cal : Calibration}
    (hl : s.lifecycle = .ready dev cal) (h : exec i s = .next t) :
    ∃ new, t.busTrace = s.busTrace ++ new ∧ ∀ r ∈ new, r.dev = dev := by
  obtain ⟨d, k, -, -, -, htrace, -, hdev⟩ := exec_issues_take h
  refine ⟨_, htrace, fun r hr => (mem_records hr).1.trans ?_⟩
  obtain rfl | hdev := hdev
  · cases hr
  · rw [hl] at hdev
    exact (device_of_deviceOf_ready hdev).2

/-- Settles O50: a command keeps `READY`, leaves `UNCONSTRUCTED` by a successful CONSTRUCT only, and hardware
reset is the one other input. -/
theorem onlyConstructAndResetChangeTheDevice : Obligations.OnlyConstructAndResetChangeTheDevice := by
  unfold Obligations.OnlyConstructAndResetChangeTheDevice
  intro s t hstep
  obtain ⟨-, rfl⟩ | ⟨w, rest, hin, hexec⟩ | ⟨rest, hin, rfl⟩ := step_cases hstep
  · exact ⟨fun _ _ hl => .inl hl, fun hl => .inl hl⟩
  · refine ⟨fun dev cal hl => .inl (exec_lifecycle_of_ready (s := { s with inputs := rest }) hl hexec), fun hl => ?_⟩
    obtain hstays | ⟨address, hi, hbus⟩ :=
      exec_lifecycle_of_unconstructed (s := { s with inputs := rest }) hl hexec
    · exact .inl hstays
    · rw [hi, constructCommitsTheDevice { s with inputs := rest } address hl hbus] at hexec
      cases hexec
      exact .inr ⟨w, address, by rw [hin]; rfl, hi, hbus, rfl⟩
  · exact ⟨fun _ _ _ => .inr ⟨by rw [hin]; rfl, rfl⟩, fun _ => .inl rfl⟩

/-! ### Invariants of every step -/

/-- A command keeps the calibration invariant: in `READY` it adds transactions with the stored address only, and
a CONSTRUCT that succeeds has just read the coefficients it commits (R100). -/
theorem exec_calibrationWasRead {i : Instr} {s t : State} (hs : CalibrationWasRead s) (h : exec i s = .next t) :
    CalibrationWasRead t := by
  intro dev cal ht
  cases hl : s.lifecycle with
  | ready dev' cal' =>
    obtain ⟨rfl, rfl⟩ := Lifecycle.ready.inj ((exec_lifecycle_of_ready hl h).symm.trans ht)
    obtain ⟨before, after, b24, b1, b8, htrace, hcal, hafter⟩ := hs _ _ hl
    obtain ⟨new, hnew, hdev⟩ := exec_records_of_ready hl h
    refine ⟨before, after ++ new, b24, b1, b8, by rw [hnew, htrace, List.append_assoc], hcal, fun r hr => ?_⟩
    exact (List.mem_append.1 hr).elim (hafter r) (hdev r)
  | unconstructed =>
    obtain hstays | ⟨address, rfl, hbus⟩ := exec_lifecycle_of_unconstructed hl h
    · cases hstays.symm.trans ht
    · cases (constructCommitsTheDevice s address hl hbus).symm.trans h
      cases ht
      exact ⟨s.busTrace, [], _, _, _, (List.append_nil _).symm, rfl, nofun⟩

/-- Settles O46: a command keeps the invariant, and after hardware reset there is no Device to speak of. -/
theorem calibrationIsAlwaysRead : Obligations.CalibrationIsAlwaysRead := by
  unfold Obligations.CalibrationIsAlwaysRead
  intro s t hs hstep
  obtain ⟨-, rfl⟩ | ⟨w, rest, -, hexec⟩ | ⟨rest, -, rfl⟩ := step_cases hstep
  · exact hs
  · exact exec_calibrationWasRead (s := { s with inputs := rest }) hs hexec
  · nofun

/-- A completed command writes no working register, or clears them (R180). -/
theorem engineAfter_work {i : Instr} {s : State} (hs : WorkIsEmpty s) : (engineAfter i s).2 = none := by
  cases i with
  | status => rfl
  | construct | readId | readStatus | reset | writeConfig | writeCtrlMeas | writeCtrlHum => exact hs

theorem exec_workIsEmpty {i : Instr} {s t : State} (hs : WorkIsEmpty s) (h : exec i s = .next t) : WorkIsEmpty t := by
  obtain ⟨-, rfl⟩ | ⟨d, hdev, hhang, ⟨k, -, rfl⟩ | ⟨-, -, hnone, -⟩⟩ := exec_next_cases h
  · exact hs
  · exact hs
  · have hengine := engine_of_busSucceeds hdev ((busSucceeds_iff ..).2 ⟨hhang, hnone⟩) h
    exact (congrArg Prod.snd hengine).trans (engineAfter_work hs)

/-- Settles O48: a command leaves the working registers empty, and hardware reset empties them. -/
theorem workingRegistersStayEmpty : Obligations.WorkingRegistersStayEmpty := by
  unfold Obligations.WorkingRegistersStayEmpty
  intro s t hs hstep
  obtain ⟨-, rfl⟩ | ⟨w, rest, -, hexec⟩ | ⟨rest, -, rfl⟩ := step_cases hstep
  · exact hs
  · exact exec_workIsEmpty (s := { s with inputs := rest }) hs hexec
  · rfl

/-- Settles O49: at reset there is no Device, no bus record and no working register. -/
theorem invariantsHoldAtReset : Obligations.InvariantsHoldAtReset := by
  unfold Obligations.InvariantsHoldAtReset
  exact ⟨nofun, nofun, rfl⟩

end Sys2Proof.Machine
end

section
/-! PROOFS. The commands of one transaction (R187 to R206), and STATUS as a function of the coefficient file and
the burst (R180 to R185). -/

namespace Sys2Proof.Machine

/-! ### One transaction -/

/-- One successful transaction on the bus and then a response. -/
theorem issue_singleton_respond (s : State) (dev : DevAddr) (x : Txn) (r : Response) :
    (s.issue dev [x]).respond r = afterOne dev x (s.reply 0 x) r s := rfl

/-- The next transaction has not failed where it succeeds. -/
theorem answerFails_zero_of_busSucceeds {s : State} (h : s.busSucceeds 1 = true) : s.answerFails 0 = false :=
  firstFailure_none ((busSucceeds_iff s 1).1 h).2 0 Nat.zero_lt_one

theorem reply_write {s : State} {j : Nat} (h : s.answerFails j = false) (reg : RegAddr) (payload : Byte) :
    s.reply j (.write reg payload) = .done := by
  simp [State.reply, h]

/-- A read of one byte delivers that byte. -/
theorem reply_read_one {s : State} {j : Nat} (h : s.answerFails j = false) (reg : RegAddr) :
    s.reply j (.read reg 1) = .data [s.answerByte j 0] :=
  reply_read h reg 1

section oneTransaction
variable {i : Instr} {x : Txn} {answer : (Nat → Nat → Byte) → Response}

/-- The four cases of a command that is accepted in `READY`, issues one transaction and then answers. -/
theorem isOneTransaction_of_exec {reply : State → Reply} {response : State → Response}
    (hexec : ∀ s, exec i s = whenReady s fun dev _ => transact dev [x] (fun bytes t => t.respond (answer bytes)) s)
    (hreply : ∀ s, s.answerFails 0 = false → s.reply 0 x = reply s)
    (hresponse : ∀ s, answer s.answerByte = response s) : IsOneTransaction i x reply response := by
  refine fun s => ⟨fun hl => (hexec s).trans (whenReady_unconstructed hl), fun dev cal hl => ?_⟩
  rw [hexec s, whenReady_ready hl]
  refine ⟨fun hhang => if_pos hhang, fun hhang hfail => ?_, fun hbus => ?_⟩
  · have hfailed : s.reply 0 x = .failed := if_pos (firstFailure_some hfail).2.1
    rw [transact_fails (txns := [x]) hhang hfail, ← hfailed]
    rfl
  · rw [transact_succeeds hbus, issue_singleton_respond, hresponse, hreply s (answerFails_zero_of_busSucceeds hbus)]

/-- A register write completes with OK (R189). -/
theorem isOneTransaction_write {reg : RegAddr} {payload : Byte} (hexec : ∀ s, exec i s = writeRegister reg payload s) :
    IsOneTransaction i (.write reg payload) (fun _ => .done) (fun _ => .ok) :=
  isOneTransaction_of_exec (answer := fun _ => .ok) hexec (fun _ h => reply_write h reg payload) fun _ => rfl

/-- A one-byte register read completes with the response made from the byte. -/
theorem isOneTransaction_read {reg : RegAddr} {answer : Byte → Response}
    (hexec : ∀ s, exec i s = readRegister reg answer s) :
    IsOneTransaction i (.read reg 1) (fun s => .data [s.answerByte 0 0]) (fun s => answer (s.answerByte 0 0)) :=
  isOneTransaction_of_exec (answer := fun bytes => answer (bytes 0 0)) hexec (fun _ h => reply_read_one h reg)
    fun _ => rfl

end oneTransaction

/-- Settles O30: READ_ID is the one-byte read of register 0xD0. -/
theorem readIdReturnsTheByte : Obligations.ReadIdReturnsTheByte := by
  unfold Obligations.ReadIdReturnsTheByte
  exact ⟨by decide, isOneTransaction_read (answer := .id) fun _ => rfl⟩

/-- Settles O31: READ_STATUS is the one-byte read of register 0xF3, answered with R204's two bits. -/
theorem readStatusReturnsTwoBits : Obligations.ReadStatusReturnsTwoBits := by
  unfold Obligations.ReadStatusReturnsTwoBits
  exact ⟨by decide, isOneTransaction_read (answer := statusResponse params) fun _ => rfl⟩

/-- Settles O32: RESET is the write of the magic byte to register 0xE0. -/
theorem resetWritesTheMagicByte : Obligations.ResetWritesTheMagicByte := by
  unfold Obligations.ResetWritesTheMagicByte
  exact ⟨by decide, isOneTransaction_write fun _ => rfl⟩

/-- A field at bit 0 of a command word stands there unshifted. -/
theorem place_zero {n : Nat} (x : BitVec n) : place x 0 = x.setWidth 16 := BitVec.shiftLeft_zero _

/-- Settles O33: the word is the encoder's, the payload `configPayload_eq`'s. -/
theorem writeConfigWritesItsPayload : Obligations.WriteConfigWritesItsPayload := by
  unfold Obligations.WriteConfigWritesItsPayload
  intro standby filter spi3w
  rw [← place_zero spi3w, ← configPayload_eq]
  exact ⟨decode_encode (.writeConfig standby filter spi3w), isOneTransaction_write fun _ => rfl⟩

/-- With the alternative shift the three fields lie side by side and fill the byte (R199). -/
theorem ctrlMeasPayload_five (tempOs pressOs : BitVec 3) (mode : BitVec 2) :
    ctrlMeasPayload 5 tempOs pressOs mode = tempOs ++ pressOs ++ mode := by
  revert tempOs pressOs mode
  decide

/-- Settles O34: the word is the encoder's, the payload `ctrlMeasPayload_eq`'s. -/
theorem writeCtrlMeasWritesItsPayload : Obligations.WriteCtrlMeasWritesItsPayload := by
  unfold Obligations.WriteCtrlMeasWritesItsPayload
  intro tempOs pressOs mode
  rw [← place_zero mode, ← ctrlMeasPayload_eq]
  exact ⟨decode_encode (.writeCtrlMeas tempOs pressOs mode), ctrlMeasPayload_five ..,
    isOneTransaction_write fun _ => rfl⟩

/-- Settles O35: the word is the encoder's, the payload `ctrlHumPayload_eq`'s. -/
theorem writeCtrlHumWritesItsPayload : Obligations.WriteCtrlHumWritesItsPayload := by
  unfold Obligations.WriteCtrlHumWritesItsPayload
  intro os
  rw [← place_zero os, ← ctrlHumPayload_eq]
  exact ⟨decode_encode (.writeCtrlHum os), isOneTransaction_write fun _ => rfl⟩

/-! ### STATUS -/

/-- The state after a STATUS whose burst read succeeds (R180). -/
theorem exec_status_eq {s : State} {dev : DevAddr} {cal : Calibration} (hl : s.lifecycle = .ready dev cal)
    (hbus : s.busSucceeds 1 = true) :
    exec .status s = .next { s with
      work := none
      answers := s.answers.drop 1
      oracleIndex := s.oracleIndex + 1
      busTrace := s.busTrace ++ [readRecord dev 0xF7 (takeBlock (s.answerByte 0) 8)]
      responses := s.responses ++
        [.meas (convert params.f64Round (runStages params cal (takeBlock (s.answerByte 0) 8)))] } := by
  rw [exec_status_of_busSucceeds hl hbus, deliver_measure, State.issue, records_singleton,
    reply_read (answerFails_zero_of_busSucceeds hbus)]
  rfl

/-- The Measurement of the stages, with the formulas and parameters of R8 in their places. -/
theorem convert_runStages (cal : Calibration) (b : Block 8) :
    convert params.f64Round (runStages params cal b) =
      { temperature := convertTemperature .tiesToEven (tempCenti (tempFine cal.tCoeffs (rawDecode 2 b).tRaw.toNat))
        pressure := pressureOf .tiesToEven (compP .exact .trunc cal.pCoeffs (rawDecode 2 b).pRaw.toNat
          (tempFine cal.tCoeffs (rawDecode 2 b).tRaw.toNat))
        humidity := convertHumidity .tiesToEven (compH .exact (cal.hCoeffs false) (rawDecode 2 b).hRaw.toNat
          (tempFine cal.tCoeffs (rawDecode 2 b).tRaw.toNat)) } := by
  simp only [convert, runStages, compT]

/-- Settles O13: the state is `exec_status_eq`'s, its Measurement `convert_runStages`'s. -/
theorem statusDeliversTheMeasurement : Obligations.StatusDeliversTheMeasurement := by
  unfold Obligations.StatusDeliversTheMeasurement
  intro s dev cal hl hbus b raw tFine hQ10
  rw [exec_status_eq hl hbus, convert_runStages]
  cases compP .exact .trunc cal.pCoeffs raw.pRaw.toNat tFine <;> rfl

/-- Settles O29: `exec_status_eq`, whose Measurement names the coefficient file and the eight bytes only. -/
theorem statusSeesOnlyCoefficientsAndBurst : Obligations.StatusSeesOnlyCoefficientsAndBurst := by
  unfold Obligations.StatusSeesOnlyCoefficientsAndBurst
  intro s1 s2 dev1 dev2 cal hl1 hl2 hbus1 hbus2 hbytes
  have hblock : takeBlock (s1.answerByte 0) 8 = takeBlock (s2.answerByte 0) 8 := funext fun i => hbytes i i.isLt
  exact ⟨_, _, _, exec_status_eq hl1 hbus1, exec_status_eq hl2 hbus2, rfl, by rw [hblock]⟩

/-- The temperature stage's inputs (R22, R120). -/
theorem tempFine_congr {c1 c2 : Calibration} {b1 b2 : Block 8} (hT1 : c1.T1 = c2.T1) (hT2 : c1.T2 = c2.T2)
    (hT3 : c1.T3 = c2.T3) (h3 : b1 3 = b2 3) (h4 : b1 4 = b2 4) (h5 : b1 5 = b2 5) :
    tempFine c1.tCoeffs (rawDecode 2 b1).tRaw.toNat = tempFine c2.tCoeffs (rawDecode 2 b2).tRaw.toNat := by
  rw [Calibration.tCoeffs, Calibration.tCoeffs, rawDecode, rawDecode, hT1, hT2, hT3, h3, h4, h5]

/-- Settles O28: each stage's formula names its own coefficients and raw value and `t_fine` only, and each raw
value its own bytes. -/
theorem eachStageReadsItsOwnInputs : Obligations.EachStageReadsItsOwnInputs := by
  unfold Obligations.EachStageReadsItsOwnInputs
  intro c1 c2 b1 b2 w1 w2 hT1 hT2 hT3 h3 h4 h5
  have hfine := tempFine_congr hT1 hT2 hT3 h3 h4 h5
  rw [convert_runStages, convert_runStages, hfine]
  refine ⟨rfl, hfine, fun hp h0 h1 h2 => ?_, fun hh h6 h7 => ?_⟩
  · have hraw : (rawDecode 2 b1).pRaw = (rawDecode 2 b2).pRaw := by rw [rawDecode, rawDecode, h0, h1, h2]
    rw [hp, hraw]
  · have hraw : (rawDecode 2 b1).hRaw = (rawDecode 2 b2).hRaw := by rw [rawDecode, rawDecode, h6, h7]
    rw [hh, hraw]

end Sys2Proof.Machine
end

section
/-! PROOFS. CalUnpack: the coefficients' values from the bytes' (R104 to R111), and that no two settings of the
bytes that matter unpack to the same coefficient file (R114 b). -/

namespace Sys2Proof.Machine

/-! ### The values of the coefficients -/

/-- A 16-bit field as an unsigned coefficient. -/
theorem le16_toNat_cast (lo hi : Byte) : ((le16 lo hi).toNat : Int) = hi.toNat * 256 + lo.toNat := by
  rw [le16_toNat]
  push_cast
  rfl

/-- A 16-bit field as a signed coefficient: the sign is that of its high byte. -/
theorem sext16_le16 (lo hi : Byte) : sext16 (le16 lo hi) = signedField lo hi := by
  have hlo := lo.isLt
  have hsign : (le16 lo hi).toNat < 32768 ↔ hi.toNat < 128 := by rw [le16_toNat]; omega
  simp only [sext16, signedField, hsign, le16_toNat_cast]

/-- The two parts of a 12-bit coefficient do not overlap, so the OR is a sum. -/
theorem nibbleCombine_toNat {high low : Byte} (hlow : low.toNat < 16) :
    (nibbleCombine high low).toNat = high.toNat * 16 + low.toNat := by
  have hhigh : high.toNat <<< 4 < 2 ^ 12 := Nat.shiftLeft_lt high.isLt
  have hlow' : low.toNat < 2 ^ 4 := hlow
  rw [nibbleCombine, BitVec.toNat_or, BitVec.toNat_shiftLeft, BitVec.toNat_setWidth_of_le (by decide),
    BitVec.toNat_setWidth_of_le (by decide), Nat.mod_eq_of_lt hhigh, ← Nat.shiftLeft_add_eq_or_of_lt hlow',
    Nat.shiftLeft_eq]

theorem lowNibble_toNat (b : Byte) : (b &&& 0x0F).toNat = b.toNat % 16 := by
  rw [BitVec.toNat_and]
  exact Nat.and_two_pow_sub_one_eq_mod b.toNat 4

theorem highNibble_toNat (b : Byte) : (b >>> 4).toNat = b.toNat / 16 := by
  rw [BitVec.toNat_ushiftRight, Nat.shiftRight_eq_div_pow]

theorem unpackH4_toNat (b8 : Block 8) : (unpackH4 b8).toNat = (b8 3).toNat * 16 + (b8 4).toNat % 16 := by
  have hnibble := lowNibble_toNat (b8 4)
  rw [unpackH4, nibbleCombine_toNat (by omega), hnibble]

theorem unpackH5_toNat (b8 : Block 8) : (unpackH5 b8).toNat = (b8 5).toNat * 16 + (b8 4).toNat / 16 := by
  have hnibble := highNibble_toNat (b8 4)
  have hbyte := (b8 4).isLt
  rw [unpackH5, nibbleCombine_toNat (by omega), hnibble]

/-- With `H45_SIGNED` false the bits count as they stand (log 12). -/
theorem h45Value_false (w : BitVec 12) : h45Value false w = w.toNat := rfl

/-- CalUnpack reads all bytes of the last block but byte 7 (R111). -/
theorem calUnpack_congr (b24 : Block 24) (b1 : Block 1) {b8 b8' : Block 8} (h : ∀ i : Fin 8, i ≠ 7 → b8' i = b8 i) :
    calUnpack b24 b1 b8' = calUnpack b24 b1 b8 := by
  simp only [calUnpack, unpackH4, unpackH5, h 0 (by decide), h 1 (by decide), h 2 (by decide), h 3 (by decide),
    h 4 (by decide), h 5 (by decide), h 6 (by decide)]

/-- Settles O11: each coefficient is a field whose value a lemma above gives. -/
theorem unpackedCoefficientValues : Obligations.UnpackedCoefficientValues := by
  unfold Obligations.UnpackedCoefficientValues
  intro b24 b1 b8 cal p h
  refine ⟨?_, le16_toNat_cast .., sext16_le16 .., sext16_le16 .., sext16_le16 .., sext16_le16 .., sext16_le16 ..,
    sext16_le16 .., sext16_le16 .., sext16_le16 .., rfl, sext16_le16 .., rfl, ?_, ?_, rfl, fun _ => calUnpack_congr b24 b1⟩
  · exact Config.TCoeffs.mk.injEq .. |>.mpr ⟨le16_toNat_cast .., sext16_le16 .., sext16_le16 ..⟩
  · exact (h45Value_false _).trans (by exact_mod_cast unpackH4_toNat b8)
  · exact (h45Value_false _).trans (by exact_mod_cast unpackH5_toNat b8)

/-! ### Back from the coefficient file to the bytes -/

/-- The first-read byte of a 16-bit field. -/
def lowByte (w : BitVec 16) : Byte := .ofNat 8 w.toNat

/-- The second-read byte of a 16-bit field. -/
def highByte (w : BitVec 16) : Byte := .ofNat 8 (w.toNat / 256)

/-- The byte above the low nibble of a 12-bit coefficient. -/
def highBits (w : BitVec 12) : Byte := .ofNat 8 (w.toNat / 16)

/-- The byte that H4 and H5 share (R109, R110). -/
def sharedByte (h4 h5 : BitVec 12) : Byte := .ofNat 8 (h5.toNat % 16 * 16 + h4.toNat % 16)

/-- A 16-bit field is the little-endian pair of exactly one pair of bytes. -/
theorem le16_eq_iff {lo hi : Byte} {w : BitVec 16} : le16 lo hi = w ↔ lo = lowByte w ∧ hi = highByte w := by
  have hlo := lo.isLt
  have hhi := hi.isLt
  have hw := w.isLt
  simp only [← BitVec.toNat_inj, le16_toNat, lowByte, highByte, BitVec.toNat_ofNat]
  omega

/-- H4 and H5 come from exactly one setting of their three bytes. -/
theorem unpackH4_unpackH5_eq_iff {b8 : Block 8} {h4 h5 : BitVec 12} :
    unpackH4 b8 = h4 ∧ unpackH5 b8 = h5 ↔ b8 3 = highBits h4 ∧ b8 4 = sharedByte h4 h5 ∧ b8 5 = highBits h5 := by
  have hbyte3 := (b8 3).isLt
  have hbyte4 := (b8 4).isLt
  have hbyte5 := (b8 5).isLt
  have hh4 := h4.isLt
  have hh5 := h5.isLt
  simp only [← BitVec.toNat_inj, unpackH4_toNat, unpackH5_toNat, highBits, sharedByte, BitVec.toNat_ofNat]
  omega

/-- The block whose twelve fields are these (R104). -/
def fieldBytes (w : Fin 12 → BitVec 16) : Block 24 := fun i =>
  if i.val % 2 = 0 then lowByte (w ⟨i.val / 2, by omega⟩) else highByte (w ⟨i.val / 2, by omega⟩)

theorem blockField_eq_iff {b24 : Block 24} {w : Fin 12 → BitVec 16} : blockField b24 = w ↔ b24 = fieldBytes w := by
  simp only [funext_iff, blockField, le16_eq_iff, fieldBytes]
  constructor
  · intro h i
    obtain ⟨hlow, hhigh⟩ := h ⟨i.val / 2, by omega⟩
    split
    · rw [← hlow]
      exact congrArg b24 (Fin.ext (by dsimp only; omega))
    · rw [← hhigh]
      exact congrArg b24 (Fin.ext (by dsimp only; omega))
  · intro h k
    have hodd : (2 * k.val + 1) / 2 = k.val := by omega
    exact ⟨by simp [h], by simp [h, hodd]⟩

/-- The coefficients of the first block in R104's list order. -/
def Calibration.words (cal : Calibration) : Fin 12 → BitVec 16 :=
  ![cal.T1, cal.T2, cal.T3, cal.P1, cal.P2, cal.P3, cal.P4, cal.P5, cal.P6, cal.P7, cal.P8, cal.P9]

/-- The last block that unpacks to this coefficient file and has this ignored byte 7. -/
def Calibration.lastBlock (cal : Calibration) (e8 : Byte) : Block 8 :=
  ![lowByte cal.H2, highByte cal.H2, cal.H3, highBits cal.H4, sharedByte cal.H4 cal.H5, highBits cal.H5, cal.H6, e8]

/-- CalUnpack gives a file exactly where each of its parts gives the file's. -/
theorem calUnpack_eq_iff {b24 : Block 24} {b1 : Block 1} {b8 : Block 8} {cal : Calibration} :
    calUnpack b24 b1 b8 = cal ↔ blockField b24 = cal.words ∧ b1 0 = cal.H1 ∧ le16 (b8 0) (b8 1) = cal.H2 ∧
      b8 2 = cal.H3 ∧ (unpackH4 b8 = cal.H4 ∧ unpackH5 b8 = cal.H5) ∧ b8 6 = cal.H6 := by
  constructor
  · rintro rfl
    refine ⟨funext fun k => ?_, rfl, rfl, rfl, ⟨rfl, rfl⟩, rfl⟩
    fin_cases k <;> rfl
  · rintro ⟨hwords, hH1, hH2, hH3, ⟨hH4, hH5⟩, hH6⟩
    rw [calUnpack, hwords, hH1, hH2, hH3, hH4, hH5, hH6]
    rfl

/-- The ignored byte and the file fix the last block. -/
theorem eq_lastBlock_iff {b8 : Block 8} {cal : Calibration} {e8 : Byte} :
    b8 = cal.lastBlock e8 ↔ le16 (b8 0) (b8 1) = cal.H2 ∧ b8 2 = cal.H3 ∧
      (unpackH4 b8 = cal.H4 ∧ unpackH5 b8 = cal.H5) ∧ b8 6 = cal.H6 ∧ b8 7 = e8 := by
  rw [le16_eq_iff, unpackH4_unpackH5_eq_iff]
  constructor
  · rintro rfl
    exact ⟨⟨rfl, rfl⟩, rfl, ⟨rfl, rfl, rfl⟩, rfl, rfl⟩
  · rintro ⟨⟨h0, h1⟩, h2, ⟨h3, h4, h5⟩, h6, h7⟩
    funext i
    fin_cases i <;> assumption

theorem calUnpack_and_ignored_iff {b : Block 24 × Block 1 × Block 8} {cal : Calibration} {e8 : Byte} :
    (b.2.2 7 = e8 ∧ calUnpack b.1 b.2.1 b.2.2 = cal) ↔
      b = (fieldBytes cal.words, fun _ => cal.H1, cal.lastBlock e8) := by
  obtain ⟨b24, b1, b8⟩ := b
  have hb1 : b1 = (fun _ => cal.H1) ↔ b1 0 = cal.H1 := by simp [funext_iff]
  rw [Prod.mk.injEq, Prod.mk.injEq, ← blockField_eq_iff, hb1, eq_lastBlock_iff, calUnpack_eq_iff]
  tauto

/-- Settles O12: the triple is the one that `calUnpack_and_ignored_iff` names. -/
theorem unpackIsABijection : Obligations.UnpackIsABijection := by
  unfold Obligations.UnpackIsABijection
  exact fun cal e8 => ⟨_, calUnpack_and_ignored_iff.mpr rfl, fun _ h => calUnpack_and_ignored_iff.mp h⟩

end Sys2Proof.Machine
end

section
/-! PROOFS. The temperature stage's ranges (R135), the pressure sentinel (R144) and the bound of `P_q8` (R152). -/

namespace Sys2Proof.Machine

/-! ### Bounds through products and shifts -/

theorem shr_range {v lo hi : Int} {n : Nat} (hlo : lo * 2 ^ n ≤ v) (hhi : v < (hi + 1) * 2 ^ n) :
    lo ≤ shr v n ∧ shr v n ≤ hi := by
  have hpos : (0 : Int) < 2 ^ n := by positivity
  exact ⟨Int.le_ediv_of_mul_le hpos hlo, Int.lt_add_one_iff.mp (Int.ediv_lt_of_lt_mul hpos hhi)⟩

theorem abs_shr_le {v A : Int} {n : Nat} (h : |v| ≤ A * 2 ^ n) : |shr v n| ≤ A := by
  have hpos : (0 : Int) < 2 ^ n := by positivity
  obtain ⟨hlo, hhi⟩ := abs_le.mp h
  exact abs_le.mpr (shr_range (by linarith) (by linarith))

theorem abs_shl_le {v A : Int} (h : |v| ≤ A) (n : Nat) : |shl v n| ≤ A * 2 ^ n := by
  rw [shl_eq, abs_mul, abs_of_pos (show (0 : Int) < 2 ^ n by positivity)]
  exact mul_le_mul_of_nonneg_right h (by positivity)

theorem abs_mul_le {a b A B : Int} (ha : |a| ≤ A) (hb : |b| ≤ B) : |a * b| ≤ A * B := by
  rw [abs_mul]
  exact mul_le_mul ha hb (abs_nonneg b) ((abs_nonneg a).trans ha)

theorem abs_sext16_le (w : BitVec 16) : |sext16 w| ≤ 32768 :=
  have hrange := sext16_range w
  abs_le.mpr ⟨by omega, by omega⟩

/-! ### Temperature (R131 to R136) -/

/-- The ranges of what the temperature stage reads (R21, R121). -/
structure TempInputs (c : Config.TCoeffs) (tRaw : Int) : Prop where
  t1 : 0 ≤ c.t1 ∧ c.t1 ≤ 65535
  t2 : -32768 ≤ c.t2 ∧ c.t2 ≤ 32767
  t3 : -32768 ≤ c.t3 ∧ c.t3 ≤ 32767
  raw : 0 ≤ tRaw ∧ tRaw < 1048576

theorem tempInputs (cal : Calibration) (tRaw : BitVec 20) : TempInputs cal.tCoeffs tRaw.toNat where
  t1 := ⟨Int.natCast_nonneg _, by have := cal.T1.isLt; simp only [Calibration.tCoeffs]; omega⟩
  t2 := sext16_range cal.T2
  t3 := sext16_range cal.T3
  raw := ⟨Int.natCast_nonneg _, by have := tRaw.isLt; omega⟩

section temperature
variable {c : Config.TCoeffs} {tRaw : Int} (h : TempInputs c tRaw)
include h

/-- The product of R131. Its two extremes come from the two ends of `t2`. -/
theorem tempVar1_product_range :
    -4294934528 ≤ (shr tRaw 3 - shl c.t1 1) * c.t2 ∧ (shr tRaw 3 - shl c.t1 1) * c.t2 ≤ 4294901760 := by
  obtain ⟨⟨ht1, ht1'⟩, ⟨ht2, ht2'⟩, -, ⟨hraw, hraw'⟩⟩ := h
  obtain ⟨hs, hs'⟩ := shr_range (v := tRaw) (n := 3) (lo := 0) (hi := 131071) (by omega) (by omega)
  rw [shl_eq]
  rcases le_total 0 c.t2 with hpos | hneg
  · constructor <;> nlinarith
  · constructor <;> nlinarith

theorem tempVar1_range : -2097136 ≤ tempVar1 c tRaw ∧ tempVar1 c tRaw ≤ 2097120 :=
  have hproduct := tempVar1_product_range h
  shr_range (by omega) (by omega)

theorem tempD_range : -65535 ≤ tempD c tRaw ∧ tempD c tRaw ≤ 65535 := by
  obtain ⟨⟨ht1, ht1'⟩, -, -, ⟨hraw, hraw'⟩⟩ := h
  obtain ⟨hs, hs'⟩ := shr_range (v := tRaw) (n := 4) (lo := 0) (hi := 65535) (by omega) (by omega)
  rw [tempD]
  omega

theorem tempD_sq_range : 0 ≤ tempD c tRaw * tempD c tRaw ∧ tempD c tRaw * tempD c tRaw ≤ 4294836225 := by
  have hd := tempD_range h
  exact ⟨mul_self_nonneg _, by nlinarith⟩

/-- The product of R132: the square is not negative, so the extremes are those of `t3`. -/
theorem tempVar2_product_range :
    -34358689792 ≤ shr (tempD c tRaw * tempD c tRaw) 12 * c.t3 ∧
      shr (tempD c tRaw * tempD c tRaw) 12 * c.t3 ≤ 34357641248 := by
  have hsq := tempD_sq_range h
  obtain ⟨hs, hs'⟩ := shr_range (v := tempD c tRaw * tempD c tRaw) (n := 12) (lo := 0) (hi := 1048544)
    (by omega) (by omega)
  obtain ⟨-, -, ⟨ht3, ht3'⟩, -⟩ := h
  constructor <;> nlinarith

theorem tempVar2_range : -2097088 ≤ tempVar2 c tRaw ∧ tempVar2 c tRaw ≤ 2097024 :=
  have hproduct := tempVar2_product_range h
  shr_range (by omega) (by omega)

theorem tempFine_range : -4194224 ≤ tempFine c tRaw ∧ tempFine c tRaw ≤ 4194144 := by
  have hvar1 := tempVar1_range h
  have hvar2 := tempVar2_range h
  rw [tempFine]
  omega

theorem tempCenti_range : -81918 ≤ tempCenti (tempFine c tRaw) ∧ tempCenti (tempFine c tRaw) ≤ 81917 :=
  have hfine := tempFine_range h
  shr_range (by omega) (by omega)

end temperature

theorem compT_exact (c : Config.TCoeffs) (tRaw : Int) :
    compT .exact c tRaw = ⟨tempFine c tRaw, tempCenti (tempFine c tRaw)⟩ := rfl

/-- Both terms see the raw value through its bits above the low three only (R136 d). -/
theorem compT_congr {c : Config.TCoeffs} {tRaw tRaw' : BitVec 20} (h : tRaw' >>> 3 = tRaw >>> 3) :
    compT .exact c tRaw'.toNat = compT .exact c tRaw.toNat := by
  have hnat : tRaw'.toNat / 8 = tRaw.toNat / 8 := by
    have := congrArg BitVec.toNat h
    rwa [BitVec.toNat_ushiftRight, BitVec.toNat_ushiftRight, Nat.shiftRight_eq_div_pow,
      Nat.shiftRight_eq_div_pow] at this
  have h3 : shr (tRaw'.toNat : Int) 3 = shr tRaw.toNat 3 := by simp only [shr_eq]; omega
  have h4 : shr (tRaw'.toNat : Int) 4 = shr tRaw.toNat 4 := by simp only [shr_eq]; omega
  simp only [compT_exact, tempFine, tempVar1, tempVar2, tempD, h3, h4]

/-- A coefficient file with these temperature coefficients. -/
def calOfT (t1 t2 t3 : BitVec 16) : Calibration :=
  ⟨t1, t2, t3, 0, 0, 0, 0, 0, 0, 0, 0, 0, 0, 0, 0, 0, 0, 0⟩

/-- Settles O16: the ranges are the stages' above; the ends are attained at the ends of the raw value, with T1 at
its other end and T2, T3 at theirs. -/
theorem temperatureRanges : Obligations.TemperatureRanges := by
  unfold Obligations.TemperatureRanges
  refine ⟨?_, ⟨calOfT 0 0x8000 0x8000, 0xFFFFF, by decide⟩, ⟨calOfT 0xFFFF 0x8000 0x7FFF, 0, by decide⟩⟩
  intro cal tRaw t
  obtain ⟨hfine, hfine'⟩ := tempFine_range (tempInputs cal tRaw)
  obtain ⟨hcenti, hcenti'⟩ := tempCenti_range (tempInputs cal tRaw)
  exact ⟨hfine, hfine', hcenti, hcenti', fun tRaw' => compT_congr⟩

/-! ### Pressure (R141 to R152) -/

theorem compP_exact (mode : Config.DivMode) (c : Config.PCoeffs) (pRaw tFine : Int) :
    compP .exact mode c pRaw tFine =
      if presVar1 c (presV tFine) = 0 then none else some (presQ8 c (presP1 mode c pRaw (presV tFine))) := rfl

theorem compP_eq_none_iff {mode : Config.DivMode} {c : Config.PCoeffs} {pRaw tFine : Int} :
    compP .exact mode c pRaw tFine = none ↔ presVar1 c (presV tFine) = 0 := by
  simp [compP_exact]

theorem compP_eq_some_iff {mode : Config.DivMode} {c : Config.PCoeffs} {pRaw tFine q : Int} :
    compP .exact mode c pRaw tFine = some q ↔
      presVar1 c (presV tFine) ≠ 0 ∧ q = presQ8 c (presP1 mode c pRaw (presV tFine)) := by
  simp [compP_exact, eq_comm]

/-- A shift gives 0 exactly on the values below one unit (R11). -/
theorem shr_eq_zero_iff {v : Int} {n : Nat} : shr v n = 0 ↔ 0 ≤ v ∧ v < 2 ^ n := by
  refine ⟨fun h => ?_, fun ⟨h0, h1⟩ => Int.ediv_eq_zero_of_lt h0 h1⟩
  simpa [h] using shr_floor v n

/-- R146 with its shift as a product. -/
theorem presP1_trunc (c : Config.PCoeffs) (pRaw v : Int) :
    presP1 .trunc c pRaw v =
      Int.tdiv ((2147483648 * (1048576 - pRaw) - presVar2 c v) * 3125) (presVar1 c v) := by
  have hshift : shl (presP0 pRaw) 31 = 2147483648 * (1048576 - pRaw) := mul_comm _ _
  rw [presP1, idiv_trunc, presNum, hshift]

/-- R148 with its shifts as a quotient and a product. -/
theorem presQ8_eq (c : Config.PCoeffs) (p1 : Int) :
    presQ8 c p1 = (p1 + presW1 c p1 + presW2 c p1) / 256 + 16 * c.p7 := by
  have hshift : shl c.p7 4 = 16 * c.p7 := mul_comm _ _
  rw [presQ8, hshift]
  rfl

/-- Settles O17: the denominator is `d2` shifted by 33, and R146 and R148 are the formulas stated. -/
theorem pressureSentinelExactly : Obligations.PressureSentinelExactly := by
  unfold Obligations.PressureSentinelExactly
  intro cal pRaw tFine c d2
  refine ⟨compP_eq_none_iff.trans shr_eq_zero_iff, fun hP1 => compP_eq_none_iff.mpr ?_, fun q hq => ?_⟩
  · have hp1 : cal.pCoeffs.p1 = 0 := by simp [Calibration.pCoeffs, hP1]
    rw [presVar1, presD2, hp1, mul_zero]
    rfl
  · obtain ⟨hvar1, rfl⟩ := compP_eq_some_iff.mp hq
    exact ⟨hvar1, _, presP1_trunc .., presQ8_eq ..⟩

/-- The ranges of what the pressure stage reads but for its denominator, `t_fine` being the temperature stage's. -/
structure PresInputs (c : Config.PCoeffs) (pRaw v : Int) : Prop where
  p4 : |c.p4| ≤ 32768
  p5 : |c.p5| ≤ 32768
  p6 : |c.p6| ≤ 32768
  p7 : |c.p7| ≤ 32768
  p8 : |c.p8| ≤ 32768
  p9 : |c.p9| ≤ 32768
  raw : 0 ≤ pRaw ∧ pRaw < 1048576
  offset : |v| ≤ 4322224

theorem presInputs (cal : Calibration) (pRaw tRaw : BitVec 20) :
    PresInputs cal.pCoeffs pRaw.toNat (presV (tempFine cal.tCoeffs tRaw.toNat)) where
  p4 := abs_sext16_le cal.P4
  p5 := abs_sext16_le cal.P5
  p6 := abs_sext16_le cal.P6
  p7 := abs_sext16_le cal.P7
  p8 := abs_sext16_le cal.P8
  p9 := abs_sext16_le cal.P9
  raw := ⟨Int.natCast_nonneg _, by have := pRaw.isLt; omega⟩
  offset := by
    have hfine := tempFine_range (tempInputs cal tRaw)
    rw [presV, abs_le]
    omega

section pressure
variable {c : Config.PCoeffs} {pRaw v : Int} (h : PresInputs c pRaw v)
include h

theorem abs_presVar2_le : |presVar2 c v| ≤ 632 * 10 ^ 15 := by
  have hsquare := abs_mul_le (abs_mul_le h.offset h.offset) h.p6
  have hlinear := abs_shl_le (abs_mul_le h.offset h.p5) 17
  have hconst := abs_shl_le h.p4 35
  calc |presVar2 c v| ≤ _ := abs_add_three ..
    _ ≤ 632 * 10 ^ 15 := by linarith

theorem abs_presNum_le : |presNum c pRaw v| ≤ 1983 * 10 ^ 18 := by
  obtain ⟨hraw, hraw'⟩ := h.raw
  have hp0 : |presP0 pRaw| ≤ 1048576 := by rw [presP0, abs_le]; omega
  have hdiff : |shl (presP0 pRaw) 31 - presVar2 c v| ≤ 6343 * 10 ^ 14 := by
    linarith [abs_sub (shl (presP0 pRaw) 31) (presVar2 c v), abs_shl_le hp0 31, abs_presVar2_le h]
  calc |presNum c pRaw v| ≤ 6343 * 10 ^ 14 * 3125 := abs_mul_le hdiff (by norm_num)
    _ ≤ 1983 * 10 ^ 18 := by norm_num

/-- A quotient by an integer other than 0 is no greater than its numerator (and truncation rounds toward 0). -/
theorem abs_presP1_le : |presP1 .trunc c pRaw v| ≤ 1983 * 10 ^ 18 := by
  refine le_trans ?_ (abs_presNum_le h)
  rw [presP1, idiv_trunc, Int.abs_eq_natAbs, Int.abs_eq_natAbs]
  exact_mod_cast Int.natAbs_tdiv_le_natAbs ..

/-- The greatest term by far is `w1`, about the square of the quotient (R147). -/
theorem abs_presQ8_le : |presQ8 c (presP1 .trunc c pRaw v)| ≤ 226 * 10 ^ 27 := by
  have hp1 := abs_presP1_le h
  generalize presP1 .trunc c pRaw v = p1 at hp1
  have hshift : |shr p1 13| ≤ 243 * 10 ^ 15 := abs_shr_le (by linarith)
  have hw1 : |presW1 c p1| ≤ 577 * 10 ^ 29 := abs_shr_le (by linarith [abs_mul_le (abs_mul_le h.p9 hshift) hshift])
  have hw2 : |presW2 c p1| ≤ 124 * 10 ^ 18 := abs_shr_le (by linarith [abs_mul_le h.p8 hp1])
  have hsum : |shr (p1 + presW1 c p1 + presW2 c p1) 8| ≤ 2259 * 10 ^ 26 :=
    abs_shr_le (by linarith [abs_add_three p1 (presW1 c p1) (presW2 c p1)])
  calc |presQ8 c p1| ≤ _ := abs_add_le ..
    _ ≤ 226 * 10 ^ 27 := by linarith [abs_shl_le h.p7 4]

end pressure

/-- Settles O24: `abs_presQ8_le` at the `t_fine` that the temperature stage hands over. -/
theorem pressureFitsNinetyNineBits : Obligations.PressureFitsNinetyNineBits := by
  unfold Obligations.PressureFitsNinetyNineBits
  intro cal b q hq
  obtain ⟨-, rfl⟩ := compP_eq_some_iff.mp hq
  exact (abs_presQ8_le (presInputs cal _ _)).trans_lt (by norm_num)

end Sys2Proof.Machine
end

section
/-! PROOFS. The 64-bit two's-complement datapath (R135, R152, R166): sums, products and left shifts commute with
taking an integer into a register whatever overflows; right shifts, divisions, comparisons and the final reading
need the integer to fit, and those integers are the ones the envelopes list. -/

namespace Sys2Proof.Machine

/-! ### Registers -/

theorem fits64_iff {z : Int} : fits64 z = true ↔ -(2 ^ 63) ≤ z ∧ z < 2 ^ 63 := by
  simp [fits64]

theorem toInt_reg {z : Int} (h : fits64 z = true) : (reg z).toInt = z :=
  BitVec.toInt_ofInt_eq_self (by decide) (fits64_iff.mp h).1 (fits64_iff.mp h).2

theorem reg_toInt (r : Reg64) : reg r.toInt = r := BitVec.ofInt_toInt

theorem reg_add (a b : Int) : reg a + reg b = reg (a + b) := (BitVec.ofInt_add a b).symm

theorem reg_mul (a b : Int) : reg a * reg b = reg (a * b) := (BitVec.ofInt_mul a b).symm

theorem reg_sub (a b : Int) : reg a - reg b = reg (a - b) := by
  rw [BitVec.sub_eq_add_neg, reg, reg, ← BitVec.ofInt_neg, ← BitVec.ofInt_add]
  rfl

theorem reg_shl (z : Int) (n : Nat) : reg z <<< n = reg (shl z n) := by
  have hpow : BitVec.twoPow 64 n = reg (2 ^ n) := by
    apply BitVec.eq_of_toNat_eq
    rw [BitVec.toNat_twoPow, reg, BitVec.toNat_ofInt]
    exact_mod_cast (Int.toNat_natCast _).symm
  rw [BitVec.shiftLeft_eq_mul_twoPow, hpow, reg_mul, shl_eq]

/-- A right shift only makes a magnitude smaller. -/
theorem fits64_shr {z : Int} (h : fits64 z = true) (n : Nat) : fits64 (shr z n) = true := by
  obtain ⟨hlo, hhi⟩ := fits64_iff.mp h
  have hone : (1 : Int) ≤ 2 ^ n := one_le_pow₀ (by norm_num)
  obtain ⟨hlo', hhi'⟩ := shr_range (v := z) (n := n) (lo := -(2 ^ 63)) (hi := 2 ^ 63 - 1) (by nlinarith) (by nlinarith)
  exact fits64_iff.mpr ⟨hlo', by omega⟩

theorem sar_reg {z : Int} (h : fits64 z = true) (n : Nat) : sar (reg z) n = reg (shr z n) := by
  apply BitVec.eq_of_toInt_eq
  rw [sar, BitVec.toInt_sshiftRight, toInt_reg h, toInt_reg (fits64_shr h n), Int.shiftRight_eq_div_pow, shr_eq]
  norm_cast

/-- Truncating division on registers. -/
theorem sdiv_reg {n d : Int} (hn : fits64 n = true) (hd : fits64 d = true) :
    (reg n).sdiv (reg d) = reg (n.tdiv d) := by
  rw [← reg_toInt ((reg n).sdiv (reg d)), BitVec.toInt_sdiv, toInt_reg hn, toInt_reg hd, reg, reg]
  exact BitVec.eq_of_toInt_eq (by simp)

/-- Flooring is one less than truncating exactly where the division is not exact and the signs differ (R14). -/
theorem fdiv_eq_ite {n d : Int} (h0 : d ≠ 0) :
    n.fdiv d = if ¬ d ∣ n ∧ ¬(n < 0 ↔ d < 0) then n.tdiv d - 1 else n.tdiv d := by
  rw [Int.fdiv_eq_tdiv]
  by_cases hdvd : d ∣ n
  · simp [hdvd]
  · have hn0 : n ≠ 0 := fun h => hdvd (h ▸ dvd_zero d)
    rcases lt_or_gt_of_ne hn0 with hn | hn <;> rcases lt_or_gt_of_ne h0 with hd | hd
    · simp [hdvd, hn, hd, not_le.mpr hn, not_le.mpr hd, Int.sign_eq_neg_one_of_neg hd]
    · simp [hdvd, hn, not_lt.mpr hd.le, not_le.mpr hn, hd.le, Int.sign_eq_one_of_pos hd]
    · simp [hdvd, hd, not_lt.mpr hn.le, hn.le, not_le.mpr hd]
    · simp [hdvd, not_lt.mpr hn.le, not_lt.mpr hd.le, hn.le, hd.le]

/-- Division on registers, in either mode, is the exact one: the overflow of `-2^63 / -1` is one of the result only. -/
theorem idiv64_reg (mode : Config.DivMode) {n d : Int} (hn : fits64 n = true) (hd : fits64 d = true) (h0 : d ≠ 0) :
    idiv64 mode (reg n) (reg d) = reg (idiv mode n d) := by
  cases mode with
  | trunc => exact sdiv_reg hn hd
  | floor =>
    have hrem : (reg n).srem (reg d) ≠ 0 ↔ ¬ d ∣ n := by
      rw [← BitVec.toInt_inj.ne, BitVec.toInt_srem, toInt_reg hn, toInt_reg hd, Int.dvd_iff_tmod_eq_zero]
      rfl
    have hsign : (reg n).msb ≠ (reg d).msb ↔ ¬(n < 0 ↔ d < 0) := by
      rw [BitVec.msb_eq_toInt, BitVec.msb_eq_toInt, toInt_reg hn, toInt_reg hd]
      simp
    simp only [idiv64, hrem, hsign, idiv_floor, fdiv_eq_ite h0, sdiv_reg hn hd]
    split
    · exact reg_sub (n.tdiv d) 1
    · rfl

/-! ### The temperature stage (R135) -/

theorem compT64_eq {c : Config.TCoeffs} {tRaw : Int} (h : TempInputs c tRaw) :
    compT64 c tRaw = (reg (tempFine c tRaw), reg (tempCenti (tempFine c tRaw))) := by
  have hraw := h.raw
  have hproduct1 := tempVar1_product_range h
  have hsquare := tempD_sq_range h
  have hproduct2 := tempVar2_product_range h
  have hfine := tempFine_range h
  have hvar1 : sar ((sar (reg tRaw) 3 - reg c.t1 <<< 1) * reg c.t2) 11 = reg (tempVar1 c tRaw) := by
    rw [sar_reg (fits64_iff.mpr (by omega)), reg_shl, reg_sub, reg_mul, sar_reg (fits64_iff.mpr (by omega)), tempVar1]
  have hd : sar (reg tRaw) 4 - reg c.t1 = reg (tempD c tRaw) := by
    rw [sar_reg (fits64_iff.mpr (by omega)), reg_sub, tempD]
  have hvar2 : sar (sar (reg (tempD c tRaw) * reg (tempD c tRaw)) 12 * reg c.t3) 14 = reg (tempVar2 c tRaw) := by
    rw [reg_mul, sar_reg (fits64_iff.mpr (by omega)), reg_mul, sar_reg (fits64_iff.mpr (by omega)), tempVar2]
  have hcenti : sar (reg (tempFine c tRaw) * 5 + 128) 8 = reg (tempCenti (tempFine c tRaw)) := by
    rw [show (5 : Reg64) = reg 5 from rfl, show (128 : Reg64) = reg 128 from rfl, reg_mul, reg_add,
      sar_reg (fits64_iff.mpr (by omega)), tempCenti]
  simp only [compT64, hvar1, hd, hvar2, reg_add]
  rw [← tempFine, hcenti]

/-- Settles O25: `compT64_eq` holds on every input, and both results fit. -/
theorem sixtyFourBitTemperatureIsExact : Obligations.SixtyFourBitTemperatureIsExact := by
  unfold Obligations.SixtyFourBitTemperatureIsExact
  intro cal tRaw
  have hinputs := tempInputs cal tRaw
  have hfine := tempFine_range hinputs
  have hcenti := tempCenti_range hinputs
  rw [compT64_eq hinputs]
  exact ⟨toInt_reg (fits64_iff.mpr (by omega)), toInt_reg (fits64_iff.mpr (by omega))⟩

/-! ### The pressure stage (R152) -/

theorem presV64_eq (tFine : Int) : reg tFine - 128000 = reg (presV tFine) := reg_sub tFine 128000

theorem presVar2_reg (c : Config.PCoeffs) (v : Int) :
    reg v * reg v * reg c.p6 + (reg v * reg c.p5) <<< 17 + reg c.p4 <<< 35 = reg (presVar2 c v) := by
  simp only [reg_mul, reg_shl, reg_add, presVar2]

theorem presD1_reg {c : Config.PCoeffs} {v : Int} (h : fits64 (v * v * c.p3) = true) :
    sar (reg v * reg v * reg c.p3) 8 + (reg v * reg c.p2) <<< 12 = reg (presD1 c v) := by
  simp only [reg_mul, reg_shl, sar_reg h, reg_add, presD1]

theorem presVar1_reg {c : Config.PCoeffs} {v : Int} (h : fits64 (presD2 c v) = true) :
    sar (((1 : Reg64) <<< 47 + reg (presD1 c v)) * reg c.p1) 33 = reg (presVar1 c v) := by
  have hd2 : ((1 : Reg64) <<< 47 + reg (presD1 c v)) * reg c.p1 = reg (presD2 c v) := by
    rw [show (1 : Reg64) = reg 1 from rfl, reg_shl, reg_add, reg_mul, presD2]
  rw [hd2, sar_reg h, presVar1]

theorem presNum_reg (c : Config.PCoeffs) (pRaw v : Int) :
    ((1048576 - reg pRaw) <<< 31 - reg (presVar2 c v)) * 3125 = reg (presNum c pRaw v) := by
  rw [show (1048576 : Reg64) = reg 1048576 from rfl, show (3125 : Reg64) = reg 3125 from rfl, reg_sub, reg_shl,
    reg_sub, reg_mul, presNum, presP0]

theorem presW1_reg {c : Config.PCoeffs} {p1 : Int} (hp1 : fits64 p1 = true)
    (h : fits64 (c.p9 * shr p1 13 * shr p1 13) = true) :
    sar (reg c.p9 * sar (reg p1) 13 * sar (reg p1) 13) 25 = reg (presW1 c p1) := by
  rw [sar_reg hp1, reg_mul, reg_mul, sar_reg h, presW1]

theorem presW2_reg {c : Config.PCoeffs} {p1 : Int} (h : fits64 (c.p8 * p1) = true) :
    sar (reg c.p8 * reg p1) 19 = reg (presW2 c p1) := by
  rw [reg_mul, sar_reg h, presW2]

theorem presQ8_reg {c : Config.PCoeffs} {p1 : Int} (h : fits64 (p1 + presW1 c p1 + presW2 c p1) = true) :
    sar (reg p1 + reg (presW1 c p1) + reg (presW2 c p1)) 8 + reg c.p7 <<< 4 = reg (presQ8 c p1) := by
  rw [reg_add, reg_add, sar_reg h, reg_shl, reg_add, presQ8]

/-- An integer that fits is 0 exactly where its register is. -/
theorem reg_eq_zero_iff {z : Int} (h : fits64 z = true) : reg z = 0 ↔ z = 0 := by
  rw [← BitVec.toInt_inj, toInt_reg h]
  rfl

/-- Settles O26: step by step each register holds the exact value, since what is shifted, divided or compared with
0 is in the envelope. -/
theorem sixtyFourBitPressureIsExactInEnvelope : Obligations.SixtyFourBitPressureIsExactInEnvelope := by
  unfold Obligations.SixtyFourBitPressureIsExactInEnvelope
  intro mode cal pRaw tFine h
  simp only [presFits64, presDenominatorValues, presQuotientValues, List.all_cons, List.all_nil, Bool.and_true,
    Bool.and_eq_true, Bool.or_eq_true, decide_eq_true_iff] at h
  obtain ⟨⟨-, -, -, -, -, -, hd1, -, -, hd2, hvar1⟩, hquotient⟩ := h
  simp only [compP64, presV64_eq, presVar2_reg, presD1_reg hd1, presVar1_reg hd2, reg_eq_zero_iff hvar1, compP_exact]
  split
  case isTrue => rfl
  case isFalse hne =>
    obtain ⟨-, -, hnum, hp1, -, hw1, -, hw2, -, hsum, hq8⟩ := hquotient.resolve_left hne
    rw [presNum_reg, idiv64_reg mode hnum hvar1 hne, ← presP1, presW1_reg hp1 hw1, presW2_reg hw2, presQ8_reg hsum,
      Option.map_some, toInt_reg hq8]

/-! ### The humidity stage (R166) -/

theorem humX64_eq (tFine : Int) : reg tFine - 76800 = reg (humX tFine) := reg_sub tFine 76800

theorem humA_reg {c : Config.HCoeffs} {hRaw x : Int}
    (h : fits64 (shl hRaw 14 - shl c.h4 20 - c.h5 * x + 16384) = true) :
    sar (reg hRaw <<< 14 - reg c.h4 <<< 20 - reg c.h5 * reg x + 16384) 15 = reg (humA c hRaw x) := by
  rw [show (16384 : Reg64) = reg 16384 from rfl, reg_shl, reg_shl, reg_sub, reg_mul, reg_sub, reg_add, sar_reg h, humA]

theorem humB1_reg {c : Config.HCoeffs} {x : Int} (h : fits64 (x * c.h6) = true) :
    sar (reg x * reg c.h6) 10 = reg (humB1 c x) := by
  rw [reg_mul, sar_reg h, humB1]

theorem humB2_reg {c : Config.HCoeffs} {x : Int} (h : fits64 (x * c.h3) = true) :
    sar (reg x * reg c.h3) 11 + 32768 = reg (humB2 c x) := by
  rw [show (32768 : Reg64) = reg 32768 from rfl, reg_mul, sar_reg h, reg_add, humB2]

theorem humB3_reg {c : Config.HCoeffs} {x : Int} (h : fits64 (humB1 c x * humB2 c x) = true) :
    sar (reg (humB1 c x) * reg (humB2 c x)) 10 + 2097152 = reg (humB3 c x) := by
  rw [show (2097152 : Reg64) = reg 2097152 from rfl, reg_mul, sar_reg h, reg_add, humB3]

theorem humB_reg {c : Config.HCoeffs} {x : Int} (h : fits64 (humB3 c x * c.h2 + 8192) = true) :
    sar (reg (humB3 c x) * reg c.h2 + 8192) 14 = reg (humB c x) := by
  rw [show (8192 : Reg64) = reg 8192 from rfl, reg_mul, reg_add, sar_reg h, humB]

theorem humZ_reg {c : Config.HCoeffs} {y : Int} (hy : fits64 y = true)
    (hsquare : fits64 (shr y 15 * shr y 15) = true) (h : fits64 (shr (shr y 15 * shr y 15) 7 * c.h1) = true) :
    sar (sar (sar (reg y) 15 * sar (reg y) 15) 7 * reg c.h1) 4 = reg (humZ c y) := by
  rw [sar_reg hy, reg_mul, sar_reg hsquare, reg_mul, sar_reg h, humZ]

theorem slt_reg_iff {a b : Int} (ha : fits64 a = true) (hb : fits64 b = true) :
    (reg a).slt (reg b) = true ↔ a < b := by
  rw [BitVec.slt_iff_toInt_lt, toInt_reg ha, toInt_reg hb]

/-- The clamp by signed comparison of registers (R162). -/
theorem humClamp_reg {w : Int} (h : fits64 w = true) :
    (if (reg w).slt 0 then 0 else if (419430400 : Reg64).slt (reg w) then 419430400 else reg w) =
      reg (humClamp w) := by
  have hlow : (reg w).slt 0 = true ↔ w < 0 := slt_reg_iff (b := 0) h (by decide)
  have hhigh : (419430400 : Reg64).slt (reg w) = true ↔ w > 419430400 :=
    slt_reg_iff (a := 419430400) (by decide) h
  simp only [hlow, hhigh, humClamp, apply_ite reg]
  rfl

theorem fits64_humClamp (w : Int) : fits64 (humClamp w) = true := by
  obtain ⟨hlo, hhi⟩ := humClamp_range w
  exact fits64_iff.mpr (by omega)

/-- Settles O27: as for pressure, with the clamp's comparison and its bounded result at the end. -/
theorem sixtyFourBitHumidityIsExactInEnvelope : Obligations.SixtyFourBitHumidityIsExactInEnvelope := by
  unfold Obligations.SixtyFourBitHumidityIsExactInEnvelope
  intro signed cal hRaw tFine h
  simp only [humFits64, humValues, List.all_cons, List.all_nil, Bool.and_true, Bool.and_eq_true] at h
  obtain ⟨-, -, ha, -, hb1, -, hb2, -, hb3, -, -, hb, -, hy, hsquare, hproduct, -, hw⟩ := h
  simp only [compH64, humX64_eq, humA_reg ha, humB1_reg hb1, humB2_reg hb2, humB3_reg hb3, humB_reg hb]
  rw [reg_mul, ← humY, humZ_reg hy hsquare hproduct, reg_sub, ← humW, humClamp_reg hw,
    sar_reg (fits64_humClamp _), toInt_reg (fits64_shr (fits64_humClamp _) _), compH_exact]

end Sys2Proof.Machine
end

section
/-! PROOFS. Integer-to-float conversion and the pressure output (R171, R173), and that no output is a NaN, an
infinity, a subnormal or -0.0. -/

namespace Sys2Proof.Machine

/-! ### The values of finite patterns -/

theorem abs_f64Value (x : F64) : |f64Value x| = magValue (magBits x) := by
  rw [f64Value_eq, abs_mul, abs_of_nonneg (magValue_nonneg _)]
  split <;> simp

/-- The least normal magnitude. -/
theorem magValue_two_pow_52 : magValue (2 ^ 52) = 2 ^ (-1022 : ℤ) := by
  have h := magValue_binade 0 (2 ^ 52) (.inl rfl) (by norm_num)
  rw [zero_mul, zero_add] at h
  rw [h, Nat.cast_pow, Nat.cast_ofNat, ← zpow_natCast, ← zpow_add₀ two_ne_zero]
  norm_num

/-- A finite pattern from the least normal magnitude on is a normal number. -/
theorem f64Normal_of_le_abs {x : F64} (hfin : f64Finite x = true) (h : 2 ^ (-1022 : ℤ) ≤ |f64Value x|) :
    f64Normal x = true := by
  rw [abs_f64Value, ← magValue_two_pow_52, magValue_strictMono.le_iff_le] at h
  have hexp : f64Exp x ≠ 0 := by rw [f64Exp_eq]; omega
  simp [f64Normal, hfin, hexp]

/-- The value of a finite pattern is an integer of at most 53 bits times a power of two (R170). -/
theorem exists_significand {x : F64} (hfin : f64Finite x = true) :
    ∃ z e : ℤ, |z| ≤ 2 ^ 53 ∧ -1074 ≤ e ∧ e ≤ 971 ∧ f64Value x = z * 2 ^ e := by
  have hbits := (f64Finite_iff x).mp hfin
  obtain ⟨mant, hmant, hval⟩ : ∃ mant : ℕ, mant ≤ 2 ^ 53 ∧
      magValue (magBits x) = mant * 2 ^ ((max (magBits x / 2 ^ 52) 1 : ℕ) - 1075 : ℤ) :=
    ⟨_, by split <;> omega, rfl⟩
  have hz : (mant : ℤ) ≤ 2 ^ 53 := by exact_mod_cast hmant
  refine ⟨(if f64Neg x then -1 else 1) * mant, (max (magBits x / 2 ^ 52) 1 : ℕ) - 1075, ?_, by omega, by omega, ?_⟩
  · split <;> simpa using hz
  · rw [f64Value_eq, hval]
    push_cast
    ring

theorem abs_f64Value_le {x : F64} (hfin : f64Finite x = true) : |f64Value x| ≤ 2 ^ 1024 := by
  obtain ⟨z, e, hz, -, he, hval⟩ := exists_significand hfin
  have hzq : |(z : ℚ)| ≤ 2 ^ (53 : ℤ) := by exact_mod_cast hz
  calc |f64Value x| = |(z : ℚ)| * 2 ^ e := by rw [hval, abs_mul, abs_of_pos (show (0 : ℚ) < 2 ^ e by positivity)]
    _ ≤ 2 ^ (53 : ℤ) * 2 ^ (971 : ℤ) := mul_le_mul hzq (zpow_le_zpow_right₀ one_le_two he) (by positivity) (by positivity)
    _ = 2 ^ (1024 : ℤ) := by rw [← zpow_add₀ two_ne_zero]; rfl
    _ = 2 ^ 1024 := zpow_natCast 2 1024

/-! ### Rounding to nearest -/

/-- Rounding does not go below a power of two that the exact magnitude reaches. -/
theorem IsNearest.two_pow_le_abs {r : F64} {q : ℚ} {e : ℤ} (h : IsNearest r q) (hlo : -1074 ≤ e) (hhi : e ≤ 971)
    (hq : 2 ^ e ≤ |q|) : 2 ^ e ≤ |f64Value r| := by
  obtain ⟨y, hy⟩ : ∃ y : F64, |f64Value y - q| = |q| - 2 ^ e := by
    rcases le_total 0 q with hpos | hneg
    · obtain ⟨y, hy⟩ := exists_f64Value_eq (z := 1) (by norm_num) hlo hhi
      rw [abs_of_nonneg hpos] at hq ⊢
      exact ⟨y, by rw [hy, abs_sub_comm, Int.cast_one, one_mul, abs_of_nonneg (by linarith)]⟩
    · obtain ⟨y, hy⟩ := exists_f64Value_eq (z := -1) (by norm_num) hlo hhi
      rw [abs_of_nonpos hneg] at hq ⊢
      refine ⟨y, ?_⟩
      rw [hy, Int.cast_neg, Int.cast_one, abs_of_nonneg (by linarith)]
      ring
  have hle := (h.2 y).1
  have htriangle := abs_sub_abs_le_abs_sub q (f64Value r)
  rw [hy] at hle
  rw [abs_sub_comm] at htriangle
  linarith

/-- What is nearest to a value not too near 0 is a normal number. -/
theorem IsNearest.normal {r : F64} {q : ℚ} {e : ℤ} (h : IsNearest r q) (hlo : -1022 ≤ e) (hhi : e ≤ 971)
    (hq : 2 ^ e ≤ |q|) : f64Normal r = true :=
  f64Normal_of_le_abs h.1
    ((zpow_le_zpow_right₀ one_le_two hlo).trans (h.two_pow_le_abs (by omega) hhi hq))

/-! ### Integer to float -/

theorem one_le_abs_cast {z : ℤ} (hz : z ≠ 0) : (1 : ℚ) ≤ |(z : ℚ)| := by
  exact_mod_cast Int.one_le_abs hz

/-- Settles O19: `i2f_nearest`, `i2f_value`, and that a magnitude of at least 1 is normal. -/
theorem integerToFloatIsNearest : Obligations.IntegerToFloatIsNearest := by
  unfold Obligations.IntegerToFloatIsNearest
  refine ⟨by decide, fun z hz => ?_⟩
  have hzq : |(z : ℚ)| < 2 ^ 1023 := by
    simpa only [Int.cast_abs, Int.cast_pow, Int.cast_ofNat] using Int.cast_lt (R := ℚ).mpr hz
  have hnearest := i2f_nearest z hzq
  exact ⟨hnearest, fun hexact => ⟨i2f_value hexact, fun hne =>
    hnearest.normal (e := 0) (by decide) (by decide) (one_le_abs_cast hne)⟩⟩

/-! ### The pressure output (R173) -/

/-- Dividing a binary64 by 256 is exact where it is 0 or not near the subnormals. -/
theorem exists_f64Value_eq_div_256 {x : F64} (hfin : f64Finite x = true)
    (h : f64Value x = 0 ∨ 1 ≤ |f64Value x|) : ∃ y : F64, f64Value y = f64Value x / 256 := by
  obtain h0 | h1 := h
  · exact ⟨x, by rw [h0, zero_div]⟩
  · obtain ⟨z, e, hz, -, he, hval⟩ := exists_significand hfin
    have he' : -53 ≤ e := by
      by_contra hsmall
      have hzq : |(z : ℚ)| ≤ 2 ^ (53 : ℤ) := by exact_mod_cast hz
      have hpow : (2 : ℚ) ^ e ≤ 2 ^ (-54 : ℤ) := zpow_le_zpow_right₀ one_le_two (by omega)
      rw [hval, abs_mul, abs_of_pos (show (0 : ℚ) < 2 ^ e by positivity)] at h1
      have := h1.trans (mul_le_mul hzq hpow (by positivity) (by positivity))
      norm_num at this
    obtain ⟨y, hy⟩ := exists_f64Value_eq (e := e - 8) hz (by omega) (by omega)
    have h256 : (2 : ℚ) ^ (8 : ℤ) = 256 := by norm_num
    exact ⟨y, by rw [hy, hval, zpow_sub₀ two_ne_zero, h256, mul_div_assoc]⟩

theorem f64Value_twoFiftySix : f64Value f64TwoFiftySix = 256 := by
  have hneg : f64Neg f64TwoFiftySix = false := by decide
  have hnum : f64Num f64TwoFiftySix = 256 * 2 ^ 44 := by decide
  have hden : f64Den f64TwoFiftySix = 2 ^ 44 := by decide
  norm_num [f64Value, hneg, hnum, hden]

/-- An integer converts to 0 or to a magnitude of at least 1. -/
theorem i2f_value_zero_or_one_le {z : ℤ} (hz : |(z : ℚ)| < 2 ^ 1023) :
    f64Value (i2f .tiesToEven z) = 0 ∨ 1 ≤ |f64Value (i2f .tiesToEven z)| := by
  by_cases h0 : z = 0
  · subst h0
    exact .inl (by simpa using i2f_value (z := 0) (by decide))
  · exact .inr ((i2f_nearest z hz).two_pow_le_abs (e := 0) (by decide) (by decide) (one_le_abs_cast h0))

/-- A finite value divided by a constant of at least 4 is below the overflow threshold. -/
theorem abs_div_lt_of_finite {x : F64} (hfin : f64Finite x = true) {b : ℚ} (hb : 4 ≤ b) :
    |f64Value x / b| < 2 ^ 1023 := by
  have hpos : (0 : ℚ) < 2 ^ 1023 := by positivity
  have hle := abs_f64Value_le hfin
  rw [pow_succ] at hle
  rw [abs_div, abs_of_pos (show 0 < b by linarith), div_lt_iff₀ (by linarith)]
  exact hle.trans_lt (mul_lt_mul_of_pos_left (by linarith) hpos)

/-- The first division is exact, so the second is the one that rounds (R173). -/
theorem convertPressure_nearest {q : ℤ} (hq : |(q : ℚ)| < 2 ^ 1023) :
    IsNearest (convertPressure .tiesToEven q) (f64Value (i2f .tiesToEven q) / 25600) := by
  have hfin := (i2f_nearest q hq).1
  have hfirst := fdiv_nearest _ f64TwoFiftySix hfin (by decide) (by decide)
    (abs_div_lt_of_finite hfin (by norm_num [f64Value_twoFiftySix]))
  obtain ⟨y, hy⟩ := exists_f64Value_eq_div_256 hfin (i2f_value_zero_or_one_le hq)
  rw [f64Value_twoFiftySix] at hfirst
  have hsecond := fdiv_nearest _ f64Hundred hfirst.1 (by decide) (by decide)
    (abs_div_lt_of_finite hfirst.1 (by norm_num [f64Value_hundred]))
  have hproduct : (256 : ℚ) * 100 = 25600 := by norm_num
  rwa [hfirst.value_eq hy, f64Value_hundred, div_div, hproduct] at hsecond

theorem abs_cast_lt_two_pow_1023 {q : ℤ} (hq : |q| < 2 ^ 99) : |(q : ℚ)| < 2 ^ 1023 :=
  calc |(q : ℚ)| < 2 ^ 99 := by exact_mod_cast hq
    _ < 2 ^ 1023 := pow_lt_pow_right₀ one_lt_two (by decide)

/-- Settles O21: `convertPressure_nearest`, and up to `2^53` the conversion is exact too. -/
theorem pressureOutputIsNearest : Obligations.PressureOutputIsNearest := by
  unfold Obligations.PressureOutputIsNearest
  intro q hq
  have hnearest := convertPressure_nearest (abs_cast_lt_two_pow_1023 hq)
  refine ⟨hnearest, fun hexact => ?_⟩
  rwa [i2f_value hexact] at hnearest

/-! ### Outputs are +0.0 or normal (R171) -/

theorem two_pow_le_abs_div {v b : ℚ} {e : ℤ} (hv : 1 ≤ |v|) (hb : 0 < b) (he : 2 ^ e * b ≤ 1) : 2 ^ e ≤ |v / b| := by
  rw [abs_div, abs_of_pos hb, le_div_iff₀ hb]
  exact he.trans hv

theorem convertTemperature_zero_or_normal {t : ℤ} (hlo : -81918 ≤ t) (hhi : t ≤ 81917) :
    convertTemperature .tiesToEven t = 0 ∨ f64Normal (convertTemperature .tiesToEven t) = true := by
  by_cases h0 : t = 0
  · subst h0
    exact .inl (by decide)
  · exact .inr ((temperatureOutputIsNearest t hlo hhi).normal (e := -7) (by decide) (by decide)
      (two_pow_le_abs_div (one_le_abs_cast h0) (by norm_num) (by norm_num)))

theorem convertHumidity_zero_or_normal {q : ℤ} (hlo : 0 ≤ q) (hhi : q ≤ 102400) :
    convertHumidity .tiesToEven q = 0 ∨ f64Normal (convertHumidity .tiesToEven q) = true := by
  by_cases h0 : q = 0
  · subst h0
    exact .inl (by decide)
  · obtain ⟨hfin, hval⟩ := humidityOutputIsExact q hlo hhi
    have hsmall : (2 : ℚ) ^ (-1022 : ℤ) ≤ 2 ^ (-10 : ℤ) := zpow_le_zpow_right₀ one_le_two (by decide)
    refine .inr (f64Normal_of_le_abs hfin (hsmall.trans ?_))
    rw [hval]
    exact two_pow_le_abs_div (one_le_abs_cast h0) (by norm_num) (by norm_num)

theorem convertPressure_zero_or_normal {q : ℤ} (hq : |(q : ℚ)| < 2 ^ 1023) :
    convertPressure .tiesToEven q = 0 ∨ f64Normal (convertPressure .tiesToEven q) = true := by
  by_cases h0 : q = 0
  · subst h0
    exact .inl (by decide)
  · have h1 : (1 : ℚ) ≤ |f64Value (i2f .tiesToEven q)| :=
      (i2f_nearest q hq).two_pow_le_abs (e := 0) (by decide) (by decide) (one_le_abs_cast h0)
    exact .inr ((convertPressure_nearest hq).normal (e := -15) (by decide) (by decide)
      (two_pow_le_abs_div h1 (by norm_num) (by norm_num)))

/-- Settles O23: the ranges of the three stages put each output under its lemma above. -/
theorem noSpecialFloatsInAMeasurement : Obligations.NoSpecialFloatsInAMeasurement := by
  unfold Obligations.NoSpecialFloatsInAMeasurement
  intro cal b m
  obtain ⟨hcenti, hcenti'⟩ := tempCenti_range (tempInputs cal (rawDecode 2 b).tRaw)
  obtain ⟨-, hhum, hhum', -⟩ := humidityClampAndShift (cal.hCoeffs false) (rawDecode 2 b).hRaw.toNat
    (tempFine cal.tCoeffs (rawDecode 2 b).tRaw.toNat)
  refine ⟨convertTemperature_zero_or_normal hcenti hcenti', convertHumidity_zero_or_normal hhum hhum', fun x hx => ?_⟩
  cases hq : (runStages params cal b).pQ8 with
  | none =>
    have hpressure : m.pressure = .invalid := congrArg (pressureOf .tiesToEven) hq
    cases hpressure.symm.trans hx
  | some q =>
    have hpressure : m.pressure = .value (convertPressure .tiesToEven q) := congrArg (pressureOf .tiesToEven) hq
    cases hpressure.symm.trans hx
    have hbound := pressureFitsNinetyNineBits cal b q hq
    exact convertPressure_zero_or_normal (abs_cast_lt_two_pow_1023 (hbound.trans (by norm_num)))

end Sys2Proof.Machine
end
